-- ==== Sys2Proof/Config.lean ====
section
/-!
DEFINITION. The implementation parameters of spec 00 R4.
The values the spec fixes are constants.
FB_PIXELS is a "model argument" with a default, so it is a field of `Config`, which `State` carries (log 3).
CHECK_END_MARKER and STRICT_HEADER are fixed to false by the spec (D26, D10): the model has only that branch.
-/

namespace Sys2Proof

/-- The build-time parameters that 00 R4 makes arguments of the model. -/
structure Config where
  /-- FB_PIXELS: how many pixels the framebuffer holds, 135 * 240 on the source's panel (00 R4, 20 R33, D4). -/
  fbPixels : Nat := 32400
  deriving DecidableEq, Repr

/-- The framebuffer's size in bytes, `FB_BYTES = 2 * FB_PIXELS` (00 R4, 20 R33). -/
def Config.fbBytes (c : Config) : Nat := 2 * c.fbPixels

/-- HEADER_BYTES (00 R4). -/
def Config.headerBytes : Nat := 14

/-- END_MARKER_BYTES (00 R4). -/
def Config.endMarkerBytes : Nat := 8

/-- MAX_CHUNK_BYTES: an RGBA chunk (00 R4). -/
def Config.maxChunkBytes : Nat := 5

/-- MAX_RUN: the most copies one RUN chunk names (00 R4, 30 R61). -/
def Config.maxRun : Nat := 62

end Sys2Proof
end

