-- ==== Sys2Proof/Word.lean ====
section
/-!
DEFINITION. The word types of the block and its one packed value, the pixel (spec 00 R4, 10 R10).
-/

namespace Sys2Proof

/-- An 8-bit unsigned value: a stream byte, a framebuffer byte, a pixel component (00 R4 COMPONENT_BITS). -/
abbrev Byte := BitVec 8

/-- A 16-bit value: the converter's RGB565 output (42 R100). -/
abbrev Half := BitVec 16

/-- A 32-bit value: the header's dimensions (10 R16) and the stream pointer (10 R14). -/
abbrev Word := BitVec 32

/-- A pixel: "a 4-tuple `(r, g, b, a)` of 8-bit unsigned components" (00 R9, 10 R10). -/
structure Pixel where
  r : Byte
  g : Byte
  b : Byte
  a : Byte
  deriving DecidableEq, Repr

end Sys2Proof
end

