-- ==== Sys2Proof/Syntax.lean ====
section
/-!
DEFINITION. The instructions: one constructor per row of spec/opcode_table.json, with the operands of 30 R60.
A signed delta is "an ordinary (mathematical) integer, never a bit pattern" (00 R5), so it is an `Int`.
-/

namespace Sys2Proof

/-- The six chunk operations and the two container rows of spec/opcode_table.json (30 R64). -/
inductive Instr where
  /-- RGB: three payload bytes (41 R84). -/
  | rgb (r g b : Byte)
  /-- RGBA: four payload bytes (41 R85). -/
  | rgba (r g b a : Byte)
  /-- INDEX: the cache entry 0..63 (41 R86). -/
  | index (i : Fin 64)
  /-- DIFF: the red, green and blue deltas, each -2..+1 (41 R87). -/
  | diff (dr dg db : Int)
  /-- LUMA: the green delta -32..+31, and red's and blue's deltas over it, each -8..+7 (41 R88). -/
  | luma (dg drDg dbDg : Int)
  /-- RUN: the number of copies 1..62 (41 R89). -/
  | run (n : Nat)
  /-- HEADER: the fields after the magic (30 R50). -/
  | header (width height : Word) (channels colorspace : Byte)
  /-- END: the eight bytes after the last chunk (30 R53). -/
  | endMarker
  deriving DecidableEq, Repr

end Sys2Proof
end

