-- ==== Sys2Proof/WellFormed.lean ====
section
/-!
DEFINITION. Which instructions the format admits: the operand ranges of 30 R60 and the header constraint of 30 R50.
-/

namespace Sys2Proof

/-- The operand ranges of 30 R60, the run limit of 30 R61 and the nonzero dimensions of 30 R50. -/
def Instr.wellFormed : Instr → Bool
  | .rgb _ _ _ => true
  | .rgba _ _ _ _ => true
  | .index _ => true
  | .diff dr dg db =>
    decide (-2 ≤ dr ∧ dr ≤ 1 ∧ -2 ≤ dg ∧ dg ≤ 1 ∧ -2 ≤ db ∧ db ≤ 1)
  | .luma dg drDg dbDg =>
    decide (-32 ≤ dg ∧ dg ≤ 31 ∧ -8 ≤ drDg ∧ drDg ≤ 7 ∧ -8 ≤ dbDg ∧ dbDg ≤ 7)
  | .run n => decide (1 ≤ n ∧ n ≤ Config.maxRun)
  | .header width height _ _ => decide (width ≠ 0 ∧ height ≠ 0)
  | .endMarker => true

end Sys2Proof
end

