-- ==== Sys2Proof/Decode.lean ====
section
/-!
DEFINITION. The decoder, total on any bytes and rejecting by name, then the encoder (spec 30, opcode_table.json).
Which encoding a byte belongs to depends on the region of the stream it stands in (30 R50).
-/

namespace Sys2Proof

/-- The three regions of a stream (30 R50). -/
inductive Region where
  | header
  | chunks
  | endMarker
  deriving DecidableEq, Repr

/-- Why bytes are no instruction of a region. -/
inductive Rejection where
  /-- Fewer than 14 bytes where the header stands (40 R71). -/
  | headerTruncated
  /-- The first four of the header's bytes are not the magic (40 R72). -/
  | badMagic
  /-- No tag byte, or a payload cut short (41 R83). -/
  | chunkTruncated
  /-- The bytes are not the end marker (30 R53); the block never asks. -/
  | notEndMarker
  deriving DecidableEq, Repr

/-- What a decoder answers: an instruction and the bytes after it, or a rejection by name. -/
inductive Decoded where
  | instr (i : Instr) (rest : List Byte)
  | rejected (why : Rejection)
  deriving DecidableEq, Repr

/-- The magic as bytes. PRESUMED by the spec itself: the ASCII codes of "qoif" (30 R51, 93 G1; log 12). -/
def magic : List Byte := [0x71, 0x6F, 0x69, 0x66]

/-- The end marker: seven `0x00` bytes, then one `0x01` byte (30 R53). -/
def endMarkerPattern : List Byte := [0, 0, 0, 0, 0, 0, 0, 1]

/-- `v[hi:lo]` of a byte as an unsigned integer (00 R5). -/
def bits (v : Byte) (hi lo : Nat) : Nat := (v.extractLsb hi lo).toNat

/-- The big-endian value of four bytes, the first most significant (00 R6, 20 R36). -/
def be32 (b0 b1 b2 b3 : Byte) : Word := b0 ++ b1 ++ b2 ++ b3

/-- The four bytes of a word, most significant first (20 R36). -/
def be32Bytes (w : Word) : List Byte :=
  [w.extractLsb' 24 8, w.extractLsb' 16 8, w.extractLsb' 8 8, w.extractLsb' 0 8]

/-- The six chunk operations as the tag names them (30 R54). -/
inductive ChunkOp where
  | rgb
  | rgba
  | index
  | diff
  | luma
  | run
  deriving DecidableEq, Repr

/-- The dispatch on the tag byte: the two full-byte tags first, then the top two bits (30 R55, 70 R159). -/
def dispatch (tag : Byte) : ChunkOp :=
  if tag = 0xFE then .rgb
  else if tag = 0xFF then .rgba
  else if bits tag 7 6 = 0b00 then .index
  else if bits tag 7 6 = 0b01 then .diff
  else if bits tag 7 6 = 0b10 then .luma
  else .run

/-- A chunk's length in bytes, tag and payload (30 R54, R57). -/
def opLength : ChunkOp → Nat
  | .rgb => 4
  | .rgba => 5
  | .index => 1
  | .diff => 1
  | .luma => 2
  | .run => 1

/-- A narrow field with its bias subtracted as an ordinary integer (30 R60). -/
def biased (field bias : Nat) : Int := (field : Int) - (bias : Int)

/-- One chunk from the front of the bytes: tag, payload and fields (30 R54, R55, R60), rejected when cut short (41 R83). -/
def decodeChunk : List Byte → Decoded
  | [] => .rejected .chunkTruncated
  | tag :: pay =>
    match dispatch tag with
    | .rgb =>
      match pay with
      | r :: g :: b :: rest => .instr (.rgb r g b) rest
      | _ => .rejected .chunkTruncated
    | .rgba =>
      match pay with
      | r :: g :: b :: a :: rest => .instr (.rgba r g b a) rest
      | _ => .rejected .chunkTruncated
    | .index => .instr (.index (Fin.ofNat 64 (bits tag 5 0))) pay
    | .diff =>
      .instr (.diff (biased (bits tag 5 4) 2) (biased (bits tag 3 2) 2) (biased (bits tag 1 0) 2)) pay
    | .luma =>
      match pay with
      | yy :: rest =>
        .instr (.luma (biased (bits tag 5 0) 32) (biased (bits yy 7 4) 8) (biased (bits yy 3 0) 8)) rest
      | [] => .rejected .chunkTruncated
    | .run => .instr (.run (bits tag 5 0 + 1)) pay

/-- The header from the front of the bytes: length first, then the magic (40 R75, 60 R138).
Zero dimensions are the header operation's own check (40 R72; log 21). -/
def decodeHeader : List Byte → Decoded
  | m0 :: m1 :: m2 :: m3 :: w0 :: w1 :: w2 :: w3 :: h0 :: h1 :: h2 :: h3 :: c :: cs :: rest =>
    if [m0, m1, m2, m3] = magic then
      .instr (.header (be32 w0 w1 w2 w3) (be32 h0 h1 h2 h3) c cs) rest
    else .rejected .badMagic
  | _ => .rejected .headerTruncated

/-- The end marker from the front of the bytes (30 R53). -/
def decodeEnd (bytes : List Byte) : Decoded :=
  if bytes.take Config.endMarkerBytes = endMarkerPattern then
    .instr .endMarker (bytes.drop Config.endMarkerBytes)
  else .rejected .notEndMarker

/-- The decoder of one region of the stream (30 R50). -/
def decode (region : Region) (bytes : List Byte) : Decoded :=
  match region with
  | .header => decodeHeader bytes
  | .chunks => decodeChunk bytes
  | .endMarker => decodeEnd bytes

/-- The region an instruction stands in (30 R50). -/
def Instr.region : Instr → Region
  | .rgb _ _ _ => .chunks
  | .rgba _ _ _ _ => .chunks
  | .index _ => .chunks
  | .diff _ _ _ => .chunks
  | .luma _ _ _ => .chunks
  | .run _ => .chunks
  | .header _ _ _ _ => .header
  | .endMarker => .endMarker

/-- The bytes of an instruction, by the notation table of 30 R63. -/
def encode : Instr → List Byte
  | .rgb r g b => [0xFE, r, g, b]
  | .rgba r g b a => [0xFF, r, g, b, a]
  | .index i => [BitVec.ofNat 8 i.val]
  | .diff dr dg db => [BitVec.ofInt 8 (0x40 + (dr + 2) * 16 + (dg + 2) * 4 + (db + 2))]
  | .luma dg drDg dbDg =>
    [BitVec.ofInt 8 (0x80 + (dg + 32)), BitVec.ofInt 8 ((drDg + 8) * 16 + (dbDg + 8))]
  | .run n => [BitVec.ofNat 8 (0xC0 + (n - 1))]
  | .header width height channels colorspace =>
    magic ++ be32Bytes width ++ be32Bytes height ++ [channels, colorspace]
  | .endMarker => endMarkerPattern

/-- How many bytes the opcode table gives an instruction (30 R54; opcode_table.json "length"). -/
def Instr.byteLength : Instr → Nat
  | .rgb _ _ _ => 4
  | .rgba _ _ _ _ => 5
  | .index _ => 1
  | .diff _ _ _ => 1
  | .luma _ _ _ => 2
  | .run _ => 1
  | .header _ _ _ _ => Config.headerBytes
  | .endMarker => Config.endMarkerBytes

/-- The region of an opcode-table row of `nbits` bits: the chunk rows have at most 40, END has 64, HEADER 112. -/
def tableRegion (nbits : Nat) : Region :=
  if nbits ≤ 8 * Config.maxChunkBytes then .chunks
  else if nbits ≤ 8 * Config.endMarkerBytes then .endMarker
  else .header

/-- The longest instruction of a region in bytes. -/
def regionBytes : Region → Nat
  | .header => Config.headerBytes
  | .chunks => Config.maxChunkBytes
  | .endMarker => Config.endMarkerBytes

/-- The bytes of a table word, first byte least significant, zero above `nbits`, up to the region's longest instruction. -/
def tableBytes (nbits w : Nat) : List Byte :=
  (List.range (regionBytes (tableRegion nbits))).map fun k =>
    BitVec.ofNat 8 (w % 2 ^ nbits / 256 ^ k)

/-- What the decoder reads from a word numbered as spec/opcode_table.json numbers it (log 19). -/
def decodeTableWord (nbits w : Nat) : Option Instr :=
  match decode (tableRegion nbits) (tableBytes nbits w) with
  | .instr i _ => some i
  | .rejected _ => none

end Sys2Proof
end

