-- ==== Sys2Proof/Machine/State.lean ====
section
/-!
DEFINITION. The state of the block as plain data (spec 10), the moves of the agents around it (spec 44), the reasons a step
can stop, and the state after RESET (10 R24).
-/

namespace Sys2Proof.Machine

/-- The framebuffer space as a list of cells in canonical form: offsets strictly rising, no cell equal to what an
unlisted offset reads as (log 1). -/
abbrev Memory := List Host.Cell

/-- The `status` register: its five legal values (10 R18). Values 5, 6, 7 never occur (93 U6; log 22). -/
inductive Status where
  /-- 0: after RESET, no decode started. -/
  | idle
  /-- 1: START accepted, header not yet parsed. -/
  | header
  /-- 2: header valid, `pixcnt < TOTAL`. -/
  | decode
  /-- 3: `pixcnt = TOTAL`; the framebuffer holds the image. -/
  | done
  /-- 4: an error was raised; `err` says which. -/
  | error
  deriving DecidableEq, Repr

/-- The `err` register: its four values (60 R131). -/
inductive ErrKind where
  /-- 0: status is not ERROR. -/
  | none
  /-- 1. -/
  | headerInvalid
  /-- 2. -/
  | decodeTruncated
  /-- 3. -/
  | capacityExceeded
  deriving DecidableEq, Repr

/-- The `err_sub` register: its four values (60 R132). -/
inductive ErrSub where
  /-- 0: `err` is not HeaderInvalid. -/
  | none
  /-- 1: `IN_LEN < 14`. -/
  | truncated
  /-- 2. -/
  | badMagic
  /-- 3: `width = 0` or `height = 0`. -/
  | zeroDimension
  deriving DecidableEq, Repr

/-- The registers the host may read (44 R118); `prev` and `index` are not among them (10 R11, R13). -/
inductive HostReg where
  | status
  | err
  | errSub
  | pixcnt
  | sp
  | hdrWidth
  | hdrHeight
  | hdrChannels
  | hdrColorspace
  deriving DecidableEq, Repr

/-- The commands of the HOST agent (44 R115 - R120). -/
inductive HostCommand where
  /-- RESET (44 R115). -/
  | reset
  /-- START with the input stream; IN_LEN is its length (44 R116). -/
  | start (input : List Byte)
  /-- A register read; polling `status` is one (44 R118). -/
  | readRegister (r : HostReg)
  /-- A read of one framebuffer byte (44 R119). -/
  | readFb (off : Nat)
  /-- Giving `(FB, hdr_width)` to the sink (44 R120). -/
  | handoff
  deriving DecidableEq, Repr

/-- One move of one agent (00 R7, R9 "Step"). -/
inductive Move where
  /-- The BLOCK takes its enabled step. -/
  | block
  /-- The HOST issues a command. -/
  | host (c : HostCommand)
  /-- The SINK's transfer ends (70 R156); with none in flight, nothing changes (log 25). -/
  | sinkEnds
  deriving DecidableEq, Repr

/-- Why a step stops the model. -/
inductive Fault where
  /-- Raised by `emit` when the pixel's two bytes are not inside FB. Safe: the header step admits an image only if
  TOTAL <= FB_PIXELS (43 R106), so no state a run reaches raises it, and MemWrite gives no such write a meaning (00 R6). -/
  | fbWriteOutOfRange
  /-- Raised by a host read of a framebuffer offset FB does not have (20 R33). Safe: the spec has no such offset. -/
  | fbReadOutOfRange
  deriving DecidableEq, Repr

/-- Why a step has no meaning. -/
inductive Refusal where
  /-- An instruction without a meaning yet; no arm of `exec` answers with it. Safe: the model stops. -/
  | notModelled (mnemonic : String)
  /-- Raised by START while BUSY, which the spec gives no meaning and a model refuses (44 R117, 93 U2).
  Unsafe in that claims say nothing of a host that does it (log 7). -/
  | startWhileBusy
  /-- Raised by START while a sink transfer is in flight, a breach of the host's duty (70 R156, 93 U4; log 7). Unsafe as above. -/
  | startWhileSinkInFlight
  /-- Raised by START with `IN_LEN >= 2^32`, which D3 refuses. Safe: the model stops. -/
  | inputTooLong
  /-- Raised by a host read of FB while BUSY, for which the spec defines no value (44 R119, 70 R157, 93 U4; log 7). Unsafe as above. -/
  | fbReadWhileBusy
  /-- Raised by HANDOFF with neither a finished nor a partial image to give (44 R120, 20 R47; log 10). Safe: the model stops. -/
  | handoffNotReady
  deriving DecidableEq, Repr

/-- The machine. The first twelve fields are the spec's state (10 R8 - R23); the rest are the parameters of a START, the
build-time parameter and the other agents, held as plain data (logs 2, 3, 4, 8, 9). -/
structure State where
  /-- The last emitted pixel (10 R10). -/
  prev : Pixel
  /-- The 64-entry index cache (10 R12). -/
  index : Vector Pixel 64
  /-- The stream pointer, the block's program counter (10 R14). -/
  sp : Word
  /-- Header bytes 4..7 (10 R16). -/
  hdrWidth : Word
  /-- Header bytes 8..11 (10 R16). -/
  hdrHeight : Word
  /-- Header byte 12, carried and not interpreted (10 R16). -/
  hdrChannels : Byte
  /-- Header byte 13, carried and not interpreted (10 R16). -/
  hdrColorspace : Byte
  /-- Pixels emitted since the last START, an unbounded natural (10 R17, D21). -/
  pixcnt : Nat
  /-- The phase of the decode (10 R18). -/
  status : Status
  /-- The error kind (10 R19). -/
  err : ErrKind
  /-- The cause of a HeaderInvalid (10 R19). -/
  errSub : ErrSub
  /-- The framebuffer (10 R23, 20 R33). -/
  fb : Memory
  /-- The bytes of IN, a parameter of the current START; IN_LEN is its length (20 R30; log 2). -/
  input : List Byte
  /-- The build-time parameters; no step changes them (00 R4; log 3). -/
  cfg : Config
  /-- The SINK's transfer in flight: the width handed over with FB (44 R120, 70 R156; log 9). -/
  sink : Option Word
  /-- The coming moves, first first; when there is none the BLOCK moves (log 4). -/
  schedule : List Move
  /-- What the HOST's last read returned (44 R118, R119; log 8). -/
  readout : Option Nat
  deriving DecidableEq, Repr

/-- The initial `prev` (10 R10). -/
def initialPrev : Pixel := ⟨0, 0, 0, 255⟩

/-- The initial value of every cache entry (10 R12). -/
def zeroPixel : Pixel := ⟨0, 0, 0, 0⟩

/-- The initial cache (10 R12). -/
def initialIndex : Vector Pixel 64 := Vector.replicate 64 zeroPixel

/-- The machine right after RESET (10 R24): every block register and every framebuffer byte at the value listed there.
The last five fields are no state of the block: their values are the model's own (logs 2, 3, 4, 8, 9). -/
def State.reset : State where
  prev := initialPrev
  index := initialIndex
  sp := 0
  hdrWidth := 0
  hdrHeight := 0
  hdrChannels := 0
  hdrColorspace := 0
  pixcnt := 0
  status := .idle
  err := .none
  errSub := .none
  fb := []
  input := []
  cfg := {}
  sink := none
  schedule := []
  readout := none

end Sys2Proof.Machine
end

