-- ==== Sys2Proof/Machine/Flags.lean ====
section
/-!
DEFINITION. The block has no flags and no condition codes (10 R20): no chunk sets or reads one.
What takes their place is the status register, so this file holds the derived TOTAL, the busy test, the numbers the host
reads for the status and error registers, and the completion rule.
-/

namespace Sys2Proof.Machine

/-- `TOTAL = hdr_width * hdr_height`, the exact product (10 R22, D20). -/
def State.total (s : State) : Nat := s.hdrWidth.toNat * s.hdrHeight.toNat

/-- BUSY: status HEADER or DECODE (10 R18). -/
def State.busy (s : State) : Bool := s.status = .header || s.status = .decode

/-- The 3-bit value of `status` (10 R18). -/
def statusCode : Status → BitVec 3
  | .idle => 0
  | .header => 1
  | .decode => 2
  | .done => 3
  | .error => 4

/-- The 2-bit value of `err` (60 R131). -/
def errCode : ErrKind → BitVec 2
  | .none => 0
  | .headerInvalid => 1
  | .decodeTruncated => 2
  | .capacityExceeded => 3

/-- The 2-bit value of `err_sub` (60 R132). -/
def errSubCode : ErrSub → BitVec 2
  | .none => 0
  | .truncated => 1
  | .badMagic => 2
  | .zeroDimension => 3

/-- Completion, at the end of a chunk step: DONE when `pixcnt = TOTAL` (43 R107). -/
def settle (s : State) : State := { s with status := if s.pixcnt = s.total then .done else s.status }

end Sys2Proof.Machine
end

