-- ==== Sys2Proof/Machine/Operands.lean ====
section
/-!
DEFINITION. Pixel arithmetic: the wrap, the hash, the pixel each chunk reconstructs (spec 41), the converter (spec 42).
-/

namespace Sys2Proof.Machine

/-- `wrap8(x) = x mod 256` of any integer, the one wrap-around primitive (00 R5). -/
def wrap8 (x : Int) : Byte := BitVec.ofInt 8 x

/-- A component plus a signed delta, wrapping (41 R90). -/
def addDelta (c : Byte) (d : Int) : Byte := wrap8 ((c.toNat : Int) + d)

/-- `wrap8(c * k)`, one product of the hash (41 R81). -/
def hashTerm (c : Byte) (k : Int) : Byte := wrap8 ((c.toNat : Int) * k)

/-- `hash(p)`, the 8-bit hash: each product wraps, and the sum wraps (41 R81). -/
def pixelHash (p : Pixel) : Byte :=
  wrap8 (((hashTerm p.r 3).toNat : Int) + ((hashTerm p.g 5).toNat : Int) + ((hashTerm p.b 7).toNat : Int)
    + ((hashTerm p.a 11).toNat : Int))

/-- The cache entry a pixel selects, `hash(p) mod 64` (41 R81). -/
def slot (p : Pixel) : Fin 64 := Fin.ofNat 64 (pixelHash p).toNat

/-- RGB: the payload's colours with the inherited alpha (41 R84). -/
def rgbPixel (prev : Pixel) (r g b : Byte) : Pixel := ⟨r, g, b, prev.a⟩

/-- RGBA: the payload's four components (41 R85). -/
def rgbaPixel (r g b a : Byte) : Pixel := ⟨r, g, b, a⟩

/-- A delta added to each colour lane, alpha passed through, no carry between lanes (41 R91). -/
def addDeltas (prev : Pixel) (dr dg db : Int) : Pixel :=
  ⟨addDelta prev.r dr, addDelta prev.g dg, addDelta prev.b db, prev.a⟩

/-- DIFF: three independent deltas (41 R87). -/
def diffPixel (prev : Pixel) (dr dg db : Int) : Pixel := addDeltas prev dr dg db

/-- LUMA: red and blue deltas stand over the green one (41 R88). -/
def lumaPixel (prev : Pixel) (dg drDg dbDg : Int) : Pixel := addDeltas prev (dg + drDg) dg (dg + dbDg)

/-- The RGB24-to-RGB565 converter (42 R100); alpha is dropped. -/
def rgb565 (p : Pixel) : Half :=
  ((p.r.setWidth 16 &&& 0xF8#16) <<< 8) ||| ((p.g.setWidth 16 &&& 0xFC#16) <<< 3) ||| (p.b.setWidth 16 >>> 3)

/-- The byte stored at the even offset, `v[15:8]` (20 R35). -/
def highByte (v : Half) : Byte := v.extractLsb' 8 8

/-- The byte stored at the odd offset, `v[7:0]` (20 R35). -/
def lowByte (v : Half) : Byte := v.extractLsb' 0 8

end Sys2Proof.Machine
end

