-- ==== Sys2Proof/Machine/Ops.lean ====
section
/-!
DEFINITION. The named operations over memory and registers that the meanings share: the framebuffer space, the cache, raising
an error, `emit`, and the frame of a chunk step (spec 20, 41, 43, 60).
-/

namespace Sys2Proof.Machine

/-- The outcomes of a step of this machine. -/
abbrev Result := Host.Outcome State Fault Refusal

/-- The state of a next outcome. -/
def nextState : Result → Option State
  | .next s => some s
  | .fault _ => none
  | .refused _ => none

/-- Run the second part of a step where the first answers a next state; a stop stays a stop. -/
def andThen (o : Result) (k : State → Result) : Result :=
  match o with
  | .next s => k s
  | .fault r => .fault r
  | .refused r => .refused r

/-! ### The framebuffer space (spec 20) -/

/-- What a framebuffer byte that nothing has written reads as: every byte is `0x00` after RESET (10 R24; log 1). -/
def fbDefault : Byte := 0x00

/-- The canonical form: offsets strictly rising, no cell equal to what an unlisted offset reads as (log 1). -/
abbrev Memory.wf (m : Memory) : Prop :=
  m.Pairwise (fun x y => x.1 < y.1) ∧ ∀ c ∈ m, c.2 ≠ fbDefault

/-- The byte at an offset of FB. -/
def fbRead : Memory → Nat → Byte
  | [], _ => fbDefault
  | (b, v) :: rest, a => if a = b then v else fbRead rest a

/-- The cells but those of one offset. -/
def fbErase (m : Memory) (a : Nat) : Memory := m.filter fun c => c.1 ≠ a

/-- A cell put before the first one of a higher offset. -/
def fbInsert : Memory → Nat → Byte → Memory
  | [], a, v => [(a, v)]
  | (b, w) :: rest, a, v => if a < b then (a, v) :: (b, w) :: rest else (b, w) :: fbInsert rest a v

/-- The store of one byte: a cell equal to what an unlisted offset reads as is left out (log 1). -/
def fbWriteByte (m : Memory) (a : Nat) (v : Byte) : Memory :=
  if v = fbDefault then fbErase m a else fbInsert (fbErase m a) a v

/-- `MemWrite(FB, off, 2, v)`: big-endian, the most significant byte at the lower offset (20 R35). -/
def fbWriteHalf (m : Memory) (off : Nat) (v : Half) : Memory :=
  fbWriteByte (fbWriteByte m off (highByte v)) (off + 1) (lowByte v)

/-! ### The index cache (10 R12) -/

/-- `index[i]`. -/
def cacheRead (cache : Vector Pixel 64) (i : Fin 64) : Pixel := cache.get i

/-- `index[i] <- p`. -/
def cacheWrite (cache : Vector Pixel 64) (i : Fin 64) (p : Pixel) : Vector Pixel 64 :=
  cache.set i.val p i.isLt

/-! ### Raising an error (60 R137) -/

/-- `raise E(info)`: only `status`, `err` and `err_sub` change; nothing is saved and control goes nowhere (60 R137).
There is no return from an error (60 R139): ERROR is left by a START or a RESET, which stand in HostCommands.lean. -/
def raise (e : ErrKind) (sub : ErrSub) (s : State) : State :=
  { s with status := .error, err := e, errSub := sub }

/-- The error a rejected fetch raises: HeaderInvalid with its cause (40 R71, R72) or DecodeTruncated (41 R83).
The block never decodes the end marker's region (30 R53), so its rejection changes nothing. -/
def raiseRejection : Rejection → State → State
  | .headerTruncated, s => raise .headerInvalid .truncated s
  | .badMagic, s => raise .headerInvalid .badMagic s
  | .chunkTruncated, s => raise .decodeTruncated .none s
  | .notEndMarker, s => s

/-! ### Emitting pixels (41 R82) -/

/-- The byte offset of the next pixel's store, `2 * pixcnt` (43 R105). -/
def State.writeOffset (s : State) : Nat := 2 * s.pixcnt

/-- The four register and memory updates of `emit(p)`, in its order (41 R82). -/
def emitPixel (p : Pixel) (s : State) : State :=
  { s with
    prev := p
    index := cacheWrite s.index (slot p) p
    fb := fbWriteHalf s.fb s.writeOffset (rgb565 p)
    pixcnt := s.pixcnt + 1 }

/-- `emit(p)`. MemWrite is defined only inside FB (00 R6); 43 R106 says every reachable store is (log 11). -/
def emit (p : Pixel) (s : State) : Result :=
  if s.writeOffset + 2 ≤ s.cfg.fbBytes then .next (emitPixel p s) else .fault .fbWriteOutOfRange

/-- `repeat n times: emit(p)` (41 R89). -/
def emitCopies : Nat → Pixel → State → Result
  | 0, _, s => .next s
  | n + 1, p, s => andThen (emit p s) (emitCopies n p)

/-- `sp <- sp + len` (10 R15). -/
def advance (len : Nat) (s : State) : State := { s with sp := s.sp + BitVec.ofNat 32 len }

/-- The end of a chunk step: the pointer past the chunk, then the completion rule (41 R80). -/
def finishChunk (len : Nat) (s : State) : State := settle (advance len s)

/-- The frame of every chunk step (41 R80): enabled exactly when the status is DECODE, it emits `n` copies of a pixel, moves
past the chunk and settles the status. Not enabled, it is no step of the block and changes nothing (log 6). -/
def chunkStep (len n : Nat) (p : Pixel) (s : State) : Result :=
  if s.status = .decode then andThen (emitCopies n p s) (fun t => .next (finishChunk len t)) else .next s

end Sys2Proof.Machine
end

