-- ==== Sys2Proof/Machine/Chunks.lean ====
section
/-!
DEFINITION. The meanings of the six chunk operations (41 R84 - R89).
Fetch and truncation (41 R83) stand in Fetch.lean: a meaning starts from the decoded chunk.
-/

namespace Sys2Proof.Machine

/-- RGB: `emit((r, g, b, prev.a))`, 4 bytes (41 R84). -/
def execRgb (r g b : Byte) (s : State) : Result := chunkStep 4 1 (rgbPixel s.prev r g b) s

/-- RGBA: `emit((r, g, b, a))`, 5 bytes (41 R85). -/
def execRgba (r g b a : Byte) (s : State) : Result := chunkStep 5 1 (rgbaPixel r g b a) s

/-- INDEX: `emit(index[i])`, 1 byte (41 R86). -/
def execIndex (i : Fin 64) (s : State) : Result := chunkStep 1 1 (cacheRead s.index i) s

/-- DIFF: the previous pixel plus three deltas, 1 byte (41 R87). -/
def execDiff (dr dg db : Int) (s : State) : Result := chunkStep 1 1 (diffPixel s.prev dr dg db) s

/-- LUMA: the previous pixel plus deltas over the green one, 2 bytes (41 R88). -/
def execLuma (dg drDg dbDg : Int) (s : State) : Result := chunkStep 2 1 (lumaPixel s.prev dg drDg dbDg) s

/-- RUN: `min(n, TOTAL - pixcnt)` copies of the previous pixel, 1 byte (41 R89, D6). -/
def execRun (n : Nat) (s : State) : Result := chunkStep 1 (min n (s.total - s.pixcnt)) s.prev s

end Sys2Proof.Machine
end

