-- ==== Sys2Proof/Machine/EndMarker.lean ====
section
/-!
DEFINITION. The meaning of the END row (30 R53).
-/

namespace Sys2Proof.Machine

/-- END: none. The block stops at `pixcnt = TOTAL` and does not read these bytes, whatever they are
(30 R53, 43 R107, D26; opcode_table.json "semantics"; log 13): nothing changes, `sp` among it. -/
def execEnd (s : State) : Result := .next s

end Sys2Proof.Machine
end

