-- ==== Sys2Proof/Machine/Header.lean ====
section
/-!
DEFINITION. The meaning of the HEADER row: the header step of 40 R75 after its length and magic checks, which the decoder makes
(log 21).
-/

namespace Sys2Proof.Machine

/-- The four header registers take the header's fields (40 R72). -/
def loadHeader (width height : Word) (channels colorspace : Byte) (s : State) : State :=
  { s with hdrWidth := width, hdrHeight := height, hdrChannels := channels, hdrColorspace := colorspace }

/-- The successful end of the header step: `sp <- 14`, `status <- DECODE` (40 R74). -/
def enterDecode (s : State) : State :=
  { s with sp := BitVec.ofNat 32 Config.headerBytes, status := .decode }

/-- HEADER: zero dimensions, then the registers, then the capacity check, then success (40 R72 - R75).
Enabled exactly when the status is HEADER (40 R70); otherwise it is no step of the block (log 6). -/
def execHeader (width height : Word) (channels colorspace : Byte) (s : State) : Result :=
  if s.status = .header then
    if width = 0 ∨ height = 0 then .next (raise .headerInvalid .zeroDimension s)
    else
      let t := loadHeader width height channels colorspace s
      if t.cfg.fbPixels < t.total then .next (raise .capacityExceeded .none t)
      else .next (enterDecode t)
  else .next s

end Sys2Proof.Machine
end

