-- ==== Sys2Proof/Machine/Fetch.lean ====
section
/-!
DEFINITION. Fetching an instruction and the step of the BLOCK agent (40 R70, 41 R80), and placing an instruction where the
block fetches its next one (log 19).
-/

namespace Sys2Proof.Machine

/-- What the block decodes next: the header at offset 0 in status HEADER (40 R72), the chunk at `sp` in status DECODE
(41 R80), and nothing in the other statuses (44 R123). -/
def fetch (s : State) : Option Decoded :=
  match s.status with
  | .header => some (decodeHeader s.input)
  | .decode => some (decodeChunk (s.input.drop s.sp.toNat))
  | .idle => none
  | .done => none
  | .error => none

/-- A decoded instruction runs; a rejected fetch raises its error (40 R71, R72, 41 R83). -/
def runDecoded (d : Decoded) (s : State) : Result :=
  match d with
  | .instr i _ => exec i s
  | .rejected why => .next (raiseRejection why s)

/-- The BLOCK's step: its one enabled step, or, where none is enabled, nothing: it sits with all state kept
(60 R143, 44 R123; log 5). -/
def blockStep (s : State) : Result :=
  match fetch s with
  | some d => runDecoded d s
  | none => .next s

/-- Put bytes into IN at an offset, with zero bytes below it where IN is shorter; the other bytes of IN stay. -/
def putInput (off : Nat) (bytes : List Byte) (s : State) : State :=
  { s with input := (s.input ++ List.replicate off 0).take off ++ bytes ++ s.input.drop (off + bytes.length) }

/-- Make room for a pixel: where no admitted image has pixels left, the header registers of an image of one row of FB_PIXELS
pixels, none emitted. -/
def makeRoom (s : State) : State :=
  if s.pixcnt < s.total ∧ s.total ≤ s.cfg.fbPixels then s
  else { s with hdrWidth := BitVec.ofNat 32 s.cfg.fbPixels, hdrHeight := 1, pixcnt := 0 }

/-- The state whose next step is the block's in the given status: no move scheduled before it, no error recorded. -/
def aboutTo (status : Status) (s : State) : State :=
  { s with status := status, err := .none, errSub := .none, schedule := [] }

/-- The first chunk's offset, directly after the header (20 R39), or `sp` where it is past that already. -/
def chunkPlace (s : State) : State :=
  if s.sp.toNat < Config.headerBytes then { s with sp := BitVec.ofNat 32 Config.headerBytes } else s

/-- The bytes of an instruction placed so that the very next step runs it: the header at offset 0 in status HEADER, a chunk at
`sp` in status DECODE, the end marker at `sp` in status DONE, where the block does not read it (log 19). -/
def placeBytes (region : Region) (bytes : List Byte) (s : State) : State :=
  match region with
  | .header => putInput 0 bytes { aboutTo .header s with sp := 0 }
  | .chunks => let t := chunkPlace (makeRoom (aboutTo .decode s)); putInput t.sp.toNat bytes t
  | .endMarker => let t := aboutTo .done s; putInput t.sp.toNat bytes t

end Sys2Proof.Machine
end

