-- ==== Sys2Proof/Machine/HostCommands.lean ====
section
/-!
DEFINITION. The commands of the HOST agent, the SINK's one event, and the move of whichever agent is next (spec 44, 70 R156).
-/

namespace Sys2Proof.Machine

/-- RESET: every register at its reset value, every framebuffer byte `0x00`, status IDLE; always enabled (44 R115).
The build-time parameters and the HOST's own data stay; no buffer is with the sink after it (20 R47; log 9). -/
def hostReset (s : State) : Result :=
  .next { State.reset with cfg := s.cfg, schedule := s.schedule, readout := s.readout }

/-- The values a START gives: the decoder state anew, the framebuffer untouched (10 R25, 70 R151). -/
def beginDecode (input : List Byte) (s : State) : State :=
  { s with
    prev := initialPrev
    index := initialIndex
    sp := 0
    hdrWidth := 0
    hdrHeight := 0
    hdrChannels := 0
    hdrColorspace := 0
    pixcnt := 0
    status := .header
    err := .none
    errSub := .none
    input := input }

/-- START: enabled when the block is not BUSY (44 R116); refused where the host breaks a premise of 44 R125: while BUSY
(44 R117), with a sink transfer in flight (70 R156), with a stream of 2^32 bytes or more (D3). -/
def hostStart (input : List Byte) (s : State) : Result :=
  if s.busy then .refused .startWhileBusy
  else if s.sink.isSome then .refused .startWhileSinkInFlight
  else if 2 ^ 32 ≤ input.length then .refused .inputTooLong
  else .next (beginDecode input s)

/-- What a register read returns: the register's value as an unsigned number (44 R118).
A header register that is not valid reads what it holds (93 U7; log 23). -/
def registerValue : HostReg → State → Nat
  | .status, s => (statusCode s.status).toNat
  | .err, s => (errCode s.err).toNat
  | .errSub, s => (errSubCode s.errSub).toNat
  | .pixcnt, s => s.pixcnt
  | .sp, s => s.sp.toNat
  | .hdrWidth, s => s.hdrWidth.toNat
  | .hdrHeight, s => s.hdrHeight.toNat
  | .hdrChannels, s => s.hdrChannels.toNat
  | .hdrColorspace, s => s.hdrColorspace.toNat

/-- A value handed to the host; the block does not change (44 R118). -/
def handToHost (v : Nat) (s : State) : State := { s with readout := some v }

/-- A register read, at any time, with no side effect (44 R118). -/
def hostReadRegister (r : HostReg) (s : State) : Result := .next (handToHost (registerValue r s) s)

/-- A read of one framebuffer byte: not while BUSY (44 R119, 93 U4), and only of an offset FB has (20 R33). -/
def hostReadFb (off : Nat) (s : State) : Result :=
  if s.busy then .refused .fbReadWhileBusy
  else if off < s.cfg.fbBytes then .next (handToHost (fbRead s.fb off).toNat s)
  else .fault .fbReadOutOfRange

/-- There is an image to give: a finished one (44 R120), or the partial one of a DecodeTruncated, which the host may display
(20 R47, 43 R110, 44 R121; log 10). -/
def handoffReady (s : State) : Bool :=
  s.status = .done || (s.status = .error && s.err = .decodeTruncated)

/-- HANDOFF: FB and `hdr_width` to the sink, whose transfer is then in flight; no block state changes (44 R120). -/
def hostHandoff (s : State) : Result :=
  if handoffReady s then .next { s with sink := some s.hdrWidth } else .refused .handoffNotReady

/-- One command of the HOST. -/
def hostMove (c : HostCommand) (s : State) : Result :=
  match c with
  | .reset => hostReset s
  | .start input => hostStart input s
  | .readRegister r => hostReadRegister r s
  | .readFb off => hostReadFb off s
  | .handoff => hostHandoff s

/-- The SINK's transfer is over, drawn or rejected: no block state changes (60 R136, 70 R156).
DESIGN CHOICE: with no transfer in flight, of which the spec says nothing, the move is accepted and changes nothing (log 25). -/
def sinkEnds (s : State) : Result := .next { s with sink := none }

/-- One move of one agent. -/
def runMove (m : Move) (s : State) : Result :=
  match m with
  | .block => blockStep s
  | .host c => hostMove c s
  | .sinkEnds => sinkEnds s

/-- The next move: the first scheduled one, and the BLOCK's where none is scheduled (70 R160; log 4). -/
def takeMove (s : State) : Result :=
  match s.schedule with
  | [] => blockStep s
  | m :: rest => runMove m { s with schedule := rest }

end Sys2Proof.Machine
end

