-- ==== Sys2Proof/Machine/Step.lean ====
section
/-!
DEFINITION. One step of the machine, and placing an opcode-table word where the next step runs it.
-/

namespace Sys2Proof.Machine

/-- One atomic transition of one agent (00 R9 "Step"). -/
def step (s : State) : Host.Outcome State Fault Refusal := takeMove s

/-- `s` with a table word placed so that the next step runs it (log 19). -/
def State.withFetchWord (s : State) (nbits w : Nat) : State :=
  placeBytes (tableRegion nbits) (tableBytes nbits w) s

end Sys2Proof.Machine
end

