-- ==== Sys2Proof/Safety.lean ====
section
/-!
DEFINITION. The terms claims are stated in: what one chunk does to the state, the errors as outcomes, the invariant of the
registers, and the history of emitted pixels (10 R26).
-/

namespace Sys2Proof

open Sys2Proof.Machine

/-- When a chunk runs normally: status DECODE with a pixel still to come in an admitted image (41 R80, R82). -/
def Ready (s : State) : Prop :=
  s.status = .decode ∧ s.pixcnt < s.total ∧ s.total ≤ s.cfg.fbPixels

/-- No move of another agent comes before the block's: in this model the next step is then the block's (log 4). -/
def BlockMoves (s : State) : Prop := s.schedule = []

/-- The hash sum as an ordinary integer, `3r + 5g + 7b + 11a` (41 R81, 95 conventions). -/
def hashSum (p : Pixel) : Nat := 3 * p.r.toNat + 5 * p.g.toNat + 7 * p.b.toNat + 11 * p.a.toNat

/-- The byte at the even offset, pattern RRRRRGGG (42 R101). -/
def evenByte (p : Pixel) : Byte := (p.r &&& 0xF8#8) ||| (p.g >>> 5)

/-- The byte at the odd offset, pattern GGGBBBBB (42 R101). -/
def oddByte (p : Pixel) : Byte := ((p.g <<< 3) &&& 0xE0#8) ||| (p.b >>> 3)

/-- The length of a chunk told from its tag, in the words of 30 R57. -/
def chunkLength (tag : Byte) : Nat :=
  if tag = 0xFE then 4
  else if tag = 0xFF then 5
  else if tag.toNat / 64 = 2 then 2
  else 1

/-- The registers that no chunk writes: the header registers (10 R16) and the error registers (10 R19). -/
def SameHeaderAndError (s t : State) : Prop :=
  t.hdrWidth = s.hdrWidth ∧ t.hdrHeight = s.hdrHeight ∧ t.hdrChannels = s.hdrChannels ∧
  t.hdrColorspace = s.hdrColorspace ∧ t.err = s.err ∧ t.errSub = s.errSub

/-- What lies outside the block: the stream, the build-time parameters and the other agents' data. -/
def SameOutside (s t : State) : Prop :=
  t.input = s.input ∧ t.cfg = s.cfg ∧ t.sink = s.sink ∧ t.schedule = s.schedule ∧ t.readout = s.readout

/-- A chunk of `len` bytes emitted `n` copies of `p` (41 R80, R82, 43 R105): every register but `status`, and every byte of FB
after it, those it leaves alone included. -/
structure EmitsPixels (p : Pixel) (n len : Nat) (s t : State) : Prop where
  prev : t.prev = p
  index : ∀ k : Fin 64, cacheRead t.index k = if k.val = hashSum p % 64 then p else cacheRead s.index k
  stored : ∀ j < n, fbRead t.fb (2 * (s.pixcnt + j)) = evenByte p ∧ fbRead t.fb (2 * (s.pixcnt + j) + 1) = oddByte p
  unstored : ∀ a, a < 2 * s.pixcnt ∨ 2 * (s.pixcnt + n) ≤ a → fbRead t.fb a = fbRead s.fb a
  pixcnt : t.pixcnt = s.pixcnt + n
  sp : t.sp = s.sp + BitVec.ofNat 32 len
  header : SameHeaderAndError s t
  outside : SameOutside s t

/-- As `EmitsPixels`, with the status: DONE at TOTAL pixels and DECODE before (43 R107, the spec's decision D5; log 15). -/
structure Emits (p : Pixel) (n len : Nat) (s t : State) : Prop extends EmitsPixels p n len s t where
  status : t.status = if s.pixcnt + n = s.total then Status.done else Status.decode

/-- The state after a raised error: all as before but `status`, `err`, `err_sub` (60 R137). -/
def withError (e : ErrKind) (sub : ErrSub) (s : State) : State :=
  { s with status := .error, err := e, errSub := sub }

/-- The next step raises DecodeTruncated (41 R83). -/
def RaisesTruncated (s : State) : Prop :=
  ∃ t, step s = .next t ∧ t.status = .error ∧ t.err = .decodeTruncated

/-- The decoder state as START and RESET leave it (10 R24, R25). -/
def Fresh (s : State) : Prop :=
  s.prev = initialPrev ∧ s.index = initialIndex ∧ s.sp = 0 ∧ s.hdrWidth = 0 ∧ s.hdrHeight = 0 ∧
  s.hdrChannels = 0 ∧ s.hdrColorspace = 0 ∧ s.pixcnt = 0

/-- The header registers describe an admitted image and `sp` is past the header (40 R72 - R74). -/
def Admitted (s : State) : Prop :=
  s.hdrWidth ≠ 0 ∧ s.hdrHeight ≠ 0 ∧ s.total ≤ s.cfg.fbPixels ∧ Config.headerBytes ≤ s.sp.toNat

/-- What status ERROR records, by error kind (60 R131, R132). -/
def ErrorRecord (s : State) : Prop :=
  match s.err with
  | .none => False
  | .headerInvalid => s.errSub ≠ .none ∧ Fresh s
  | .decodeTruncated => s.errSub = .none ∧ Admitted s ∧ s.pixcnt < s.total
  | .capacityExceeded =>
    s.errSub = .none ∧ s.hdrWidth ≠ 0 ∧ s.hdrHeight ≠ 0 ∧ s.cfg.fbPixels < s.total ∧ s.sp = 0 ∧ s.pixcnt = 0 ∧
    s.prev = initialPrev ∧ s.index = initialIndex

/-- The register and memory invariant between any two steps (10 R14 - R19, R26 (d), 20 R33, 60 R131). -/
structure Inv (s : State) : Prop where
  /-- The framebuffer is in canonical form (log 1) … -/
  fbWf : s.fb.wf
  /-- … and has no cell outside FB (20 R33). -/
  fbInside : ∀ c ∈ s.fb, c.1 < s.cfg.fbBytes
  /-- `0 <= sp <= IN_LEN` (10 R14) … -/
  spInside : s.sp.toNat ≤ s.input.length
  /-- … and `IN_LEN < 2^32` (44 R125 P3). -/
  inputBounded : s.input.length < 2 ^ 32
  /-- IDLE: the reset values (10 R24). -/
  idle : s.status = .idle → Fresh s
  /-- HEADER: the values START gave (10 R25). -/
  header : s.status = .header → Fresh s
  /-- DECODE: header valid, `pixcnt < TOTAL <= FB_PIXELS` (10 R18). -/
  decode : s.status = .decode → Admitted s ∧ s.pixcnt < s.total
  /-- DONE: `pixcnt = TOTAL` (10 R26). -/
  done : s.status = .done → Admitted s ∧ s.pixcnt = s.total
  /-- ERROR: `err` says which (60 R131). -/
  error : s.status = .error → ErrorRecord s
  /-- `err = 0` whenever status is not ERROR (10 R19). -/
  noError : s.status ≠ .error → s.err = .none ∧ s.errSub = .none
  /-- The sink has a transfer in flight only of an image that stands (20 R47, 70 R156). -/
  sinkQuiet : s.sink.isSome → handoffReady s

/-- The most recent pixel of a sequence that selects a cache entry, or `(0, 0, 0, 0)` (10 R26 (b)). -/
def lastInSlot (ps : List Pixel) (k : Fin 64) : Pixel :=
  (ps.reverse.find? fun p => hashSum p % 64 = k.val).getD zeroPixel

/-- The block has emitted exactly `ps` since the last START or RESET (10 R26 (a), (b), (c)). -/
structure Emitted (ps : List Pixel) (s : State) : Prop where
  prev : s.prev = ps.getLast?.getD initialPrev
  index : ∀ k : Fin 64, cacheRead s.index k = lastInSlot ps k
  pixcnt : s.pixcnt = ps.length
  fb : ∀ n p, ps[n]? = some p → fbRead s.fb (2 * n) = evenByte p ∧ fbRead s.fb (2 * n + 1) = oddByte p

/-- The six chunk operations among the instructions (30 R64). -/
def IsChunk (i : Instr) : Prop := i.region = .chunks

/-- A state with other `hdr_channels` and `hdr_colorspace` (41 R93). -/
def withFormat (c cs : Byte) (s : State) : State := { s with hdrChannels := c, hdrColorspace := cs }

/-- A state with another framebuffer content (20 R33). -/
def withFb (m : Memory) (s : State) : State := { s with fb := m }

end Sys2Proof
end

