-- ==== Sys2Proof/Certificates/Slice0/Obligations.lean ====
section
/-!
DEFINITION. The statements for the provers, from the spec's numbered rules. Nothing is proved here.
Witnesses for their hypotheses stand in Sys2Proof/Tests/Slice0.lean.
-/

open Sys2Proof Sys2Proof.Machine

/-! ### Encoding (spec 30) -/

/-- The bytes the source's worked examples spell decode to the instruction the spec says they are (95 Part 1, P1, P2, P5). The magic's byte values are the spec's general
knowledge (log 12). -/
def Obligations.WorkedExampleBytesDecode : Prop :=
  decodeChunk [0xFE, 0xFF, 0x00, 0x00] = .instr (.rgb 255 0 0) [] ∧
  decodeChunk [0xFF, 0x01, 0x02, 0x03, 0x04] = .instr (.rgba 1 2 3 4) [] ∧
  decodeChunk [0x09] = .instr (.index 9) [] ∧
  decodeChunk [0x55] = .instr (.diff (-1) (-1) (-1)) [] ∧
  decodeChunk [0xA0, 0x88] = .instr (.luma 0 0 0) [] ∧
  decodeChunk [0xFD] = .instr (.run 62) [] ∧
  decodeHeader [0x71, 0x6F, 0x69, 0x66, 0, 0, 0, 1, 0, 0, 0, 1, 3, 0] = .instr (.header 1 1 3 0) [] ∧
  decodeEnd [0, 0, 0, 0, 0, 0, 0, 1] = .instr .endMarker []

/-- Decoding the encoding of a well-formed instruction gives it back, whatever bytes follow (30 R54, R60, R63). -/
def Obligations.DecodeOfEncode : Prop :=
  ∀ (i : Instr) (rest : List Byte), i.wellFormed = true → decode i.region (encode i ++ rest) = .instr i rest

/-- Whatever bytes decode to an instruction are its encoding, so no bit of a chunk or header is dropped, and a chunk that decodes
is well-formed (30 R54, R60). -/
def Obligations.EncodeOfDecoded : Prop :=
  ∀ (region : Region) (bytes rest : List Byte) (i : Instr), decode region bytes = .instr i rest →
    i.region = region ∧ encode i ++ rest = bytes ∧ (region = .chunks → i.wellFormed = true)

/-- The six ranges of the tag byte, with match and mask, select the six operations (30 R56). -/
def Obligations.TagRangesSelectOperations : Prop :=
  ∀ tag : Byte,
    ((tag.toNat ≤ 0x3F ↔ dispatch tag = .index) ∧
     (0x40 ≤ tag.toNat ∧ tag.toNat ≤ 0x7F ↔ dispatch tag = .diff) ∧
     (0x80 ≤ tag.toNat ∧ tag.toNat ≤ 0xBF ↔ dispatch tag = .luma) ∧
     (0xC0 ≤ tag.toNat ∧ tag.toNat ≤ 0xFD ↔ dispatch tag = .run) ∧
     (tag.toNat = 0xFE ↔ dispatch tag = .rgb) ∧
     (tag.toNat = 0xFF ↔ dispatch tag = .rgba)) ∧
    ((tag &&& 0xC0 = 0x00 ↔ dispatch tag = .index) ∧
     (tag &&& 0xC0 = 0x40 ↔ dispatch tag = .diff) ∧
     (tag &&& 0xC0 = 0x80 ↔ dispatch tag = .luma) ∧
     (tag &&& 0xC0 = 0xC0 ∧ tag ≠ 0xFE ∧ tag ≠ 0xFF ↔ dispatch tag = .run) ∧
     (tag &&& 0xFF = 0xFE ↔ dispatch tag = .rgb) ∧
     (tag &&& 0xFF = 0xFF ↔ dispatch tag = .rgba)) ∧
    opLength (dispatch tag) = chunkLength tag

/-- A chunk is as long as its tag alone says: with that many bytes it decodes and leaves the bytes after them, with fewer it is
rejected as truncated, and so is the empty list (30 R57, 41 R83). -/
def Obligations.ChunkLengthIsToldByTag : Prop :=
  decodeChunk [] = .rejected .chunkTruncated ∧
  ∀ (tag : Byte) (pay : List Byte),
    (chunkLength tag ≤ pay.length + 1 →
      ∃ i, i.wellFormed = true ∧ decodeChunk (tag :: pay) = .instr i (pay.drop (chunkLength tag - 1))) ∧
    (pay.length + 1 < chunkLength tag → decodeChunk (tag :: pay) = .rejected .chunkTruncated)

/-- Read as chunks, the end marker would be seven INDEX 0 and one INDEX 1 (30 R53). -/
def Obligations.EndMarkerWouldDecodeAsIndexChunks : Prop :=
  ∀ rest : List Byte,
    decodeChunk (0x00 :: rest) = .instr (.index 0) rest ∧ decodeChunk (0x01 :: rest) = .instr (.index 1) rest

/-! ### The meanings: each answers a next state, with its frame

The status each leaves, DONE at TOTAL, is 43 R107, which rests on the spec's decision D5 (log 15). -/

/-- RGB (41 R84). -/
def Obligations.RgbEmitsPayloadWithInheritedAlpha : Prop :=
  ∀ (r g b : Byte) (s : State), Ready s →
    ∃ t, exec (.rgb r g b) s = .next t ∧ Emits ⟨r, g, b, s.prev.a⟩ 1 4 s t

/-- RGBA (41 R85). -/
def Obligations.RgbaEmitsPayload : Prop :=
  ∀ (r g b a : Byte) (s : State), Ready s →
    ∃ t, exec (.rgba r g b a) s = .next t ∧ Emits ⟨r, g, b, a⟩ 1 5 s t

/-- INDEX (41 R86): the entry read is the one before the step; the cache is written like after any pixel. -/
def Obligations.IndexEmitsCacheEntry : Prop :=
  ∀ (k : Fin 64) (s : State), Ready s →
    ∃ t, exec (.index k) s = .next t ∧ Emits (cacheRead s.index k) 1 1 s t

/-- DIFF (41 R87): each colour component is the sum modulo 256, alpha is kept. -/
def Obligations.DiffAddsDeltasModulo256 : Prop :=
  ∀ (dr dg db : Int) (s : State), Ready s →
    ∃ t, exec (.diff dr dg db) s = .next t ∧ Emits t.prev 1 1 s t ∧
      (t.prev.r.toNat : Int) = ((s.prev.r.toNat : Int) + dr) % 256 ∧
      (t.prev.g.toNat : Int) = ((s.prev.g.toNat : Int) + dg) % 256 ∧
      (t.prev.b.toNat : Int) = ((s.prev.b.toNat : Int) + db) % 256 ∧
      t.prev.a = s.prev.a

/-- LUMA (41 R88): red and blue add the green delta and their own, modulo 256; alpha is kept. -/
def Obligations.LumaAddsDeltasModulo256 : Prop :=
  ∀ (dg drDg dbDg : Int) (s : State), Ready s →
    ∃ t, exec (.luma dg drDg dbDg) s = .next t ∧ Emits t.prev 1 2 s t ∧
      (t.prev.r.toNat : Int) = ((s.prev.r.toNat : Int) + dg + drDg) % 256 ∧
      (t.prev.g.toNat : Int) = ((s.prev.g.toNat : Int) + dg) % 256 ∧
      (t.prev.b.toNat : Int) = ((s.prev.b.toNat : Int) + dg + dbDg) % 256 ∧
      t.prev.a = s.prev.a

/-- RUN (41 R89): `min(n, TOTAL - pixcnt)` copies of the previous pixel. The cut is the spec's decision D6 (log 15). -/
def Obligations.RunRepeatsPreviousPixel : Prop :=
  ∀ (n : Nat) (s : State), 1 ≤ n → Ready s →
    ∃ t, exec (.run n) s = .next t ∧ Emits s.prev (min n (s.total - s.pixcnt)) 1 s t

/-- HEADER, the case without an error (40 R72 - R74): the registers, `sp` and the status change, nothing else. -/
def Obligations.HeaderOfAdmittedImageEntersDecode : Prop :=
  ∀ (w h : Word) (c cs : Byte) (s : State), s.status = .header → w ≠ 0 → h ≠ 0 →
    w.toNat * h.toNat ≤ s.cfg.fbPixels →
    exec (.header w h c cs) s = .next
      { s with hdrWidth := w, hdrHeight := h, hdrChannels := c, hdrColorspace := cs, sp := 14, status := .decode }

/-- HEADER, its two errors (40 R72, R73, 60 R138): a zero dimension leaves the header registers alone, an image larger than FB
leaves the offending dimensions in them. The spec's decisions D7, D9, D11 (log 16). -/
def Obligations.HeaderErrorsOfDimensions : Prop :=
  ∀ (w h : Word) (c cs : Byte) (s : State), s.status = .header →
    (w = 0 ∨ h = 0 → exec (.header w h c cs) s = .next (withError .headerInvalid .zeroDimension s)) ∧
    (w ≠ 0 → h ≠ 0 → s.cfg.fbPixels < w.toNat * h.toNat →
      exec (.header w h c cs) s = .next (withError .capacityExceeded .none
        { s with hdrWidth := w, hdrHeight := h, hdrChannels := c, hdrColorspace := cs }))

/-- END: nothing changes, the stream pointer included. Read from 30 R53 and 43 R107 by inference (log 13, D26). -/
def Obligations.EndMarkerChangesNothing : Prop :=
  ∀ s : State, exec .endMarker s = .next s

/-- The model's own choice (log 6): a chunk outside status DECODE, or a header outside status HEADER, is no step of the block
and changes nothing. -/
def Obligations.StepsNotEnabledChangeNothing : Prop :=
  ∀ (i : Instr) (s : State),
    (IsChunk i → s.status ≠ .decode → exec i s = .next s) ∧
    (i.region = .header → s.status ≠ .header → exec i s = .next s)

/-! ### One step of the block on its stream -/

/-- The step runs the decoded instruction, also as a scheduled block move; the schedule is the model's own (log 4). -/
def Obligations.StepRunsDecodedInstruction : Prop :=
  ∀ (s : State) (i : Instr) (rest : List Byte) (ms : List Move),
    (s.status = .decode → decodeChunk (s.input.drop s.sp.toNat) = .instr i rest →
      (s.schedule = [] → step s = exec i s) ∧
      (s.schedule = .block :: ms → step s = exec i { s with schedule := ms })) ∧
    (s.status = .header → decodeHeader s.input = .instr i rest →
      (s.schedule = [] → step s = exec i s) ∧
      (s.schedule = .block :: ms → step s = exec i { s with schedule := ms }))

/-- RGB from its bytes, truncation included (41 R84). When the status becomes DONE is decision D5 and stands in the meanings above,
for this and the four statements after it. -/
def Obligations.RgbChunkStep : Prop :=
  ∀ s : State, BlockMoves s → Ready s → s.input[s.sp.toNat]? = some 0xFE →
    (s.input.length < s.sp.toNat + 4 → RaisesTruncated s) ∧
    (∀ r g b, s.input[s.sp.toNat + 1]? = some r → s.input[s.sp.toNat + 2]? = some g →
      s.input[s.sp.toNat + 3]? = some b →
      ∃ t, step s = .next t ∧ EmitsPixels ⟨r, g, b, s.prev.a⟩ 1 4 s t)

/-- RGBA from its bytes, truncation included (41 R85). -/
def Obligations.RgbaChunkStep : Prop :=
  ∀ s : State, BlockMoves s → Ready s → s.input[s.sp.toNat]? = some 0xFF →
    (s.input.length < s.sp.toNat + 5 → RaisesTruncated s) ∧
    (∀ r g b a, s.input[s.sp.toNat + 1]? = some r → s.input[s.sp.toNat + 2]? = some g →
      s.input[s.sp.toNat + 3]? = some b → s.input[s.sp.toNat + 4]? = some a →
      ∃ t, step s = .next t ∧ EmitsPixels ⟨r, g, b, a⟩ 1 5 s t)

/-- INDEX from its byte, and truncation only without a byte (41 R86). -/
def Obligations.IndexChunkStep : Prop :=
  ∀ s : State, BlockMoves s → Ready s →
    (s.input[s.sp.toNat]? = none → RaisesTruncated s) ∧
    (∀ (tag : Byte) (k : Fin 64), s.input[s.sp.toNat]? = some tag → tag.toNat = k.val →
      ∃ t, step s = .next t ∧ EmitsPixels (cacheRead s.index k) 1 1 s t)

/-- DIFF from its byte, and truncation only without a byte (41 R87). -/
def Obligations.DiffChunkStep : Prop :=
  ∀ s : State, BlockMoves s → Ready s →
    (s.input[s.sp.toNat]? = none → RaisesTruncated s) ∧
    (∀ tag : Byte, s.input[s.sp.toNat]? = some tag → 0x40 ≤ tag.toNat → tag.toNat ≤ 0x7F →
      ∃ t, step s = .next t ∧ EmitsPixels t.prev 1 1 s t ∧
        (t.prev.r.toNat : Int) = ((s.prev.r.toNat : Int) + ((tag.toNat / 16 % 4 : Nat) - 2)) % 256 ∧
        (t.prev.g.toNat : Int) = ((s.prev.g.toNat : Int) + ((tag.toNat / 4 % 4 : Nat) - 2)) % 256 ∧
        (t.prev.b.toNat : Int) = ((s.prev.b.toNat : Int) + ((tag.toNat % 4 : Nat) - 2)) % 256 ∧
        t.prev.a = s.prev.a)

/-- LUMA from its two bytes, truncation included (41 R88). -/
def Obligations.LumaChunkStep : Prop :=
  ∀ (s : State) (tag : Byte), BlockMoves s → Ready s → s.input[s.sp.toNat]? = some tag →
    0x80 ≤ tag.toNat → tag.toNat ≤ 0xBF →
    (s.input[s.sp.toNat + 1]? = none → RaisesTruncated s) ∧
    (∀ yy : Byte, s.input[s.sp.toNat + 1]? = some yy →
      ∃ t, step s = .next t ∧ EmitsPixels t.prev 1 2 s t ∧
        (t.prev.r.toNat : Int) =
          ((s.prev.r.toNat : Int) + ((tag.toNat % 64 : Nat) - 32) + ((yy.toNat / 16 : Nat) - 8)) % 256 ∧
        (t.prev.g.toNat : Int) = ((s.prev.g.toNat : Int) + ((tag.toNat % 64 : Nat) - 32)) % 256 ∧
        (t.prev.b.toNat : Int) =
          ((s.prev.b.toNat : Int) + ((tag.toNat % 64 : Nat) - 32) + ((yy.toNat % 16 : Nat) - 8)) % 256 ∧
        t.prev.a = s.prev.a)

/-- RUN from its byte, and truncation only without a byte (41 R89). The cut is the spec's decision D6 (log 15). -/
def Obligations.RunChunkStep : Prop :=
  ∀ s : State, BlockMoves s → Ready s →
    (s.input[s.sp.toNat]? = none → RaisesTruncated s) ∧
    (∀ tag : Byte, s.input[s.sp.toNat]? = some tag → 0xC0 ≤ tag.toNat → tag.toNat ≤ 0xFD →
      ∃ t, step s = .next t ∧ Emits s.prev (min (tag.toNat % 64 + 1) (s.total - s.pixcnt)) 1 s t)

/-- The header step on the stream's bytes, line for line (40 R75). It rests on the spec's decisions D7, D9, D10 and on the
magic's byte values, which the spec takes from general knowledge (logs 12, 14, 16). -/
def Obligations.HeaderStepFollowsItsPseudocode : Prop :=
  ∀ s : State, BlockMoves s → s.status = .header →
    let h := fun k : Nat => s.input.getD k 0
    let w := (h 4).toNat * 2 ^ 24 + (h 5).toNat * 2 ^ 16 + (h 6).toNat * 2 ^ 8 + (h 7).toNat
    let ht := (h 8).toNat * 2 ^ 24 + (h 9).toNat * 2 ^ 16 + (h 10).toNat * 2 ^ 8 + (h 11).toNat
    let t := { s with
      hdrWidth := BitVec.ofNat 32 w, hdrHeight := BitVec.ofNat 32 ht, hdrChannels := h 12, hdrColorspace := h 13 }
    step s =
      if s.input.length < 14 then .next (withError .headerInvalid .truncated s)
      else if h 0 ≠ 0x71 ∨ h 1 ≠ 0x6F ∨ h 2 ≠ 0x69 ∨ h 3 ≠ 0x66 then .next (withError .headerInvalid .badMagic s)
      else if w = 0 ∨ ht = 0 then .next (withError .headerInvalid .zeroDimension s)
      else if s.cfg.fbPixels < w * ht then .next (withError .capacityExceeded .none t)
      else .next { t with sp := 14, status := .decode }

/-- Fetch and truncation (41 R83): with no tag byte, or a payload that runs past IN, the step raises DecodeTruncated; otherwise
the chunk decodes and its meaning runs. That nothing else changes is the spec's decision D12 (log 17). -/
def Obligations.ChunkFetchRaisesTruncationExactlyWhenShort : Prop :=
  ∀ s : State, BlockMoves s → s.status = .decode →
    (s.input.length ≤ s.sp.toNat → step s = .next (withError .decodeTruncated .none s)) ∧
    (∀ tag : Byte, s.input[s.sp.toNat]? = some tag →
      (s.input.length < s.sp.toNat + chunkLength tag → step s = .next (withError .decodeTruncated .none s)) ∧
      (s.sp.toNat + chunkLength tag ≤ s.input.length →
        ∃ i rest, IsChunk i ∧ i.wellFormed = true ∧ decodeChunk (s.input.drop s.sp.toNat) = .instr i rest ∧
          step s = exec i s))

/-- The model's own choice (log 5): where no block step is enabled, a block move changes nothing (60 R143, 44 R123). -/
def Obligations.BlockWithoutEnabledStepKeepsState : Prop :=
  ∀ s : State, BlockMoves s → s.busy = false → step s = .next s

/-- Every chunk step of a state that meets the invariant raises DecodeTruncated and changes nothing else, or emits a pixel and
moves `sp` past the chunk, inside IN (41 R94, 10 R15). That the raising step changes nothing else is the spec's decision D12
(41 R83, log 17); that `pixcnt` stays at most TOTAL is 10 R17 with the cut of its decisions D5 and D6 (41 R89, log 15). -/
def Obligations.ChunkStepRaisesOrMakesProgress : Prop :=
  ∀ s : State, Inv s → BlockMoves s → s.status = .decode →
    step s = .next (withError .decodeTruncated .none s) ∨
    ∃ t tag, step s = .next t ∧ s.input[s.sp.toNat]? = some tag ∧
      t.sp.toNat = s.sp.toNat + chunkLength tag ∧ t.sp.toNat ≤ s.input.length ∧
      s.pixcnt < t.pixcnt ∧ t.pixcnt ≤ s.total

/-- With only the block moving, a decode ends: within TOTAL - pixcnt chunk steps from status DECODE, and within one more than
FB_PIXELS steps from status HEADER (41 R94, 70 R160; the fairness is log 4). -/
def Obligations.DecodeTerminates : Prop :=
  ∀ s : State, Inv s → BlockMoves s →
    (s.status = .decode →
      ∃ k t, k ≤ s.total - s.pixcnt ∧ Host.Core.run core k s = .next t ∧ (t.status = .done ∨ t.status = .error)) ∧
    (s.status = .header →
      ∃ k t, k ≤ s.cfg.fbPixels + 1 ∧ Host.Core.run core k s = .next t ∧ (t.status = .done ∨ t.status = .error))

/-- The block's move always answers a next state where the invariant holds: no stop, no store outside FB (43 R106). -/
def Obligations.BlockMoveNeverStops : Prop :=
  ∀ s : State, Inv s → BlockMoves s → ∃ t, step s = .next t

/-- Errors are precise: the raising step changes `status`, `err` and `err_sub` only, but that CapacityExceeded keeps the header
registers just written; `err_sub` is set for HeaderInvalid only; and no block step is enabled afterwards (60 R137, decisions D7,
D11, D12; that a disabled block keeps its state is log 5). -/
def Obligations.RaisedErrorsArePrecise : Prop :=
  ∀ s t : State, BlockMoves s → s.status ≠ .error → step s = .next t → t.status = .error →
    ((t.err = .headerInvalid ∧ t.errSub ≠ .none ∧ t = withError .headerInvalid t.errSub s) ∨
     (t.err = .decodeTruncated ∧ t = withError .decodeTruncated .none s) ∨
     (t.err = .capacityExceeded ∧ t = withError .capacityExceeded .none
        { s with
          hdrWidth := t.hdrWidth, hdrHeight := t.hdrHeight,
          hdrChannels := t.hdrChannels, hdrColorspace := t.hdrColorspace })) ∧
    step t = .next t

/-- While the block is not BUSY, only START and RESET change it: errors and DONE are sticky (60 R139, 44 R118, R120).
The three fields that may change are the model's own, of the other agents (logs 4, 8, 9). -/
def Obligations.OnlyStartOrResetLeavesAnEndedDecode : Prop :=
  ∀ s t : State, s.busy = false → step s = .next t →
    (∀ ms, s.schedule ≠ .host .reset :: ms) → (∀ input ms, s.schedule ≠ .host (.start input) :: ms) →
    t = { s with sink := t.sink, schedule := t.schedule, readout := t.readout }

/-- A block move changes no framebuffer byte but those of the pixels it counts (20 R46, 43 R105). -/
def Obligations.BlockWritesOnlyCountedPixels : Prop :=
  ∀ s t : State, BlockMoves s → step s = .next t →
    s.pixcnt ≤ t.pixcnt ∧
    ∀ a, a < 2 * s.pixcnt ∨ 2 * t.pixcnt ≤ a → fbRead t.fb a = fbRead s.fb a

/-- A stream has no way to touch the input, the build-time parameters or the other agents (44 R122). -/
def Obligations.StreamTouchesNothingOutsideTheBlock : Prop :=
  ∀ s t : State, BlockMoves s → step s = .next t → SameOutside s t

/-- `hdr_channels` and `hdr_colorspace` do nothing to the operations (41 R93). -/
def Obligations.FormatBytesDoNotChangeDecoding : Prop :=
  ∀ (i : Instr) (c cs : Byte) (s t : State), IsChunk i → exec i s = .next t →
    exec i (withFormat c cs s) = .next (withFormat c cs t)

/-- The block never reads FB: with any other framebuffer content its move gives the same registers and stores the same pixels
(20 R33). -/
def Obligations.BlockNeverReadsFramebuffer : Prop :=
  ∀ (s t : State) (m : Memory), BlockMoves s → step s = .next t →
    ∃ m', step (withFb m s) = .next (withFb m' t) ∧
      (∀ a, 2 * s.pixcnt ≤ a → a < 2 * t.pixcnt → fbRead m' a = fbRead t.fb a) ∧
      (∀ a, a < 2 * s.pixcnt ∨ 2 * t.pixcnt ≤ a → fbRead m' a = fbRead m a)

/-! ### Arithmetic, the converter and the framebuffer space -/

/-- The hash wraps each product and the sum, and its entry is the integer sum modulo 64, as the spec derives (41 R81). -/
def Obligations.HashSelectsIntegerSumMod64 : Prop :=
  ∀ p : Pixel,
    (pixelHash p).toNat =
      (p.r.toNat * 3 % 256 + p.g.toNat * 5 % 256 + p.b.toNat * 7 % 256 + p.a.toNat * 11 % 256) % 256 ∧
    (slot p).val = (pixelHash p).toNat % 64 ∧
    (slot p).val = (3 * p.r.toNat + 5 * p.g.toNat + 7 * p.b.toNat + 11 * p.a.toNat) % 64

/-- The converter packs the top 5, 6 and 5 bits of red, green and blue and drops the rest and alpha (42 R100). -/
def Obligations.Rgb565PacksTopBits : Prop :=
  ∀ p : Pixel,
    rgb565 p = ((p.r.setWidth 16 &&& 0xF8#16) <<< 8) ||| ((p.g.setWidth 16 &&& 0xFC#16) <<< 3) ||| (p.b.setWidth 16 >>> 3) ∧
    (rgb565 p).toNat / 2048 = p.r.toNat / 8 ∧
    (rgb565 p).toNat / 32 % 64 = p.g.toNat / 4 ∧
    (rgb565 p).toNat % 32 = p.b.toNat / 8

/-- The two stored bytes of a pixel, as the spec derives them (42 R101, 20 R35). -/
def Obligations.Rgb565Bytes : Prop :=
  ∀ p : Pixel, highByte (rgb565 p) = evenByte p ∧ lowByte (rgb565 p) = oddByte p

/-- `MemWrite(FB, off, 2, v)`: the high byte at `off`, the low byte at `off + 1`, every other byte as before, and the canonical
form kept (20 R35, 00 R6; the form is the model's, log 1). -/
def Obligations.FramebufferStoreIsBigEndian : Prop :=
  ∀ (m : Memory) (off : Nat) (v : Half), m.wf →
    (fbWriteHalf m off v).wf ∧
    (fbRead (fbWriteHalf m off v) off).toNat = v.toNat / 256 ∧
    (fbRead (fbWriteHalf m off v) (off + 1)).toNat = v.toNat % 256 ∧
    ∀ a, a ≠ off → a ≠ off + 1 → fbRead (fbWriteHalf m off v) a = fbRead m a

/-- In canonical form the framebuffer's content is the framebuffer: equal bytes are equal data (log 1). -/
def Obligations.FramebufferFormIsCanonical : Prop :=
  ∀ m m' : Memory, m.wf → m'.wf → (∀ a, fbRead m a = fbRead m' a) → m = m'

/-! ### Reset and the host's commands -/

/-- The state after RESET (10 R24); FB_PIXELS has its default (00 R4). -/
def Obligations.ResetValues : Prop :=
  State.reset.prev = ⟨0, 0, 0, 255⟩ ∧ (∀ k, cacheRead State.reset.index k = ⟨0, 0, 0, 0⟩) ∧ State.reset.sp = 0 ∧
  State.reset.hdrWidth = 0 ∧ State.reset.hdrHeight = 0 ∧ State.reset.hdrChannels = 0 ∧ State.reset.hdrColorspace = 0 ∧
  State.reset.pixcnt = 0 ∧ statusCode State.reset.status = 0 ∧ errCode State.reset.err = 0 ∧
  errSubCode State.reset.errSub = 0 ∧ (∀ off < 64800, fbRead State.reset.fb off = 0x00) ∧
  State.reset.cfg.fbBytes = 64800

/-- RESET (44 R115): always enabled, the values of 10 R24, any decode abandoned (decision D14); the
last two clauses are the model's own (logs 3, 4, 18). -/
def Obligations.ResetCommand : Prop :=
  ∀ (s : State) (ms : List Move), s.schedule = .host .reset :: ms →
    ∃ t, step s = .next t ∧ Fresh t ∧ t.status = .idle ∧ t.err = .none ∧ t.errSub = .none ∧
      (∀ off, fbRead t.fb off = 0x00) ∧ t.cfg = s.cfg ∧ t.schedule = ms

/-- START (44 R116): when not BUSY and with the host's duties kept, the decoder state anew, status HEADER, FB untouched.
The last three clauses are the model's own (logs 2, 3, 4). -/
def Obligations.StartCommand : Prop :=
  ∀ (s : State) (input : List Byte) (ms : List Move), s.schedule = .host (.start input) :: ms →
    (s.status = .idle ∨ s.status = .done ∨ s.status = .error) → s.sink = none → input.length < 2 ^ 32 →
    ∃ t, step s = .next t ∧ Fresh t ∧ t.status = .header ∧ t.err = .none ∧ t.errSub = .none ∧
      t.fb = s.fb ∧ t.input = input ∧ t.cfg = s.cfg ∧ t.schedule = ms

/-- START while BUSY is refused (44 R117); so is one with a sink transfer in flight or a stream of 2^32 bytes or more, which
are other premises of a START (44 R125). Refusing by name is log 7. -/
def Obligations.StartOutsideItsPremisesIsRefused : Prop :=
  ∀ (s : State) (input : List Byte) (ms : List Move), s.schedule = .host (.start input) :: ms →
    (s.status = .header ∨ s.status = .decode → step s = .refused .startWhileBusy) ∧
    (s.busy = false → s.sink ≠ none → step s = .refused .startWhileSinkInFlight) ∧
    (s.busy = false → s.sink = none → 2 ^ 32 ≤ input.length → step s = .refused .inputTooLong)

/-- A register read returns the register and changes nothing of the block, with the codes of 10 R18, 60 R131 and R132 (decisions
D8, D16). 44 R118 gives `status`, `err`, `err_sub`, `pixcnt` and `sp` at any status, and the header registers when they are
valid (10 R16); that these read what they hold at any status is deduced from 93 U7 (log 23). The value read stands in the model's own `readout` (log 8). -/
def Obligations.RegisterReadsHaveNoSideEffect : Prop :=
  (∀ (s : State) (r : HostReg) (ms : List Move), s.schedule = .host (.readRegister r) :: ms →
    step s = .next { s with schedule := ms, readout := some (registerValue r s) }) ∧
  (∀ s : State, registerValue .pixcnt s = s.pixcnt ∧ registerValue .sp s = s.sp.toNat ∧
    registerValue .hdrWidth s = s.hdrWidth.toNat ∧ registerValue .hdrHeight s = s.hdrHeight.toNat ∧
    registerValue .hdrChannels s = s.hdrChannels.toNat ∧ registerValue .hdrColorspace s = s.hdrColorspace.toNat) ∧
  (∀ s : State, registerValue .status s =
    match s.status with | .idle => 0 | .header => 1 | .decode => 2 | .done => 3 | .error => 4) ∧
  (∀ s : State, registerValue .err s =
    match s.err with | .none => 0 | .headerInvalid => 1 | .decodeTruncated => 2 | .capacityExceeded => 3) ∧
  (∀ s : State, registerValue .errSub s =
    match s.errSub with | .none => 0 | .truncated => 1 | .badMagic => 2 | .zeroDimension => 3)

/-- The host reads FB when not BUSY, without effect on the block, and must not while BUSY (44 R119, 93 U4).
The stops are the model's (logs 7, 11), and so is where the value read stands (log 8). -/
def Obligations.FramebufferReads : Prop :=
  ∀ (s : State) (off : Nat) (ms : List Move), s.schedule = .host (.readFb off) :: ms →
    (s.busy = true → step s = .refused .fbReadWhileBusy) ∧
    (s.busy = false → off < s.cfg.fbBytes →
      step s = .next { s with schedule := ms, readout := some (fbRead s.fb off).toNat }) ∧
    (s.busy = false → s.cfg.fbBytes ≤ off → step s = .fault .fbReadOutOfRange)

/-- HANDOFF gives the sink `hdr_width` and FB and leaves the block alone (44 R120); the end of the sink's transfer leaves it
alone too (60 R136), also with no transfer in flight, which is the model's choice (log 25). That a partial image may be handed over is the model's reading (log 10). -/
def Obligations.HandoffKeepsTheBlock : Prop :=
  ∀ (s : State) (ms : List Move),
    (s.schedule = .host .handoff :: ms → s.status = .done ∨ (s.status = .error ∧ s.err = .decodeTruncated) →
      step s = .next { s with schedule := ms, sink := some s.hdrWidth }) ∧
    (s.schedule = .sinkEnds :: ms → step s = .next { s with schedule := ms, sink := none })

/-- START forgets: two states that differ in anything but the build-time parameters and the host's own data give, after a START
of the same stream, states that differ in FB alone (70 R151). -/
def Obligations.StartForgetsTheEarlierDecode : Prop :=
  ∀ (s₁ s₂ t₁ t₂ : State) (input : List Byte) (ms : List Move),
    s₁.schedule = .host (.start input) :: ms → s₂.schedule = .host (.start input) :: ms →
    s₁.cfg = s₂.cfg → s₁.readout = s₂.readout → step s₁ = .next t₁ → step s₂ = .next t₂ →
    t₂ = withFb s₂.fb t₁

/-! ### Invariants -/

/-- The invariant holds after RESET; its clauses on the form of FB and on the sink are the model's own (logs 1, 9). -/
def Obligations.InvariantAtReset : Prop := Inv State.reset

/-- Every step of every agent keeps the invariant (10 R14 - R19, R26, 20 R33, 60 R131); its clauses on the form of FB and on
the sink are the model's own (logs 1, 9, 10). -/
def Obligations.InvariantKeptByEveryStep : Prop :=
  ∀ s t : State, Inv s → step s = .next t → Inv t

/-- After RESET nothing has been emitted. -/
def Obligations.NothingEmittedAtReset : Prop := Emitted [] State.reset

/-- Whatever has been emitted, `prev`, every cache entry, `pixcnt` and the framebuffer agree with it (10 R26), and every step
keeps that: it appends pixels, and only START and RESET forget them all and start anew. -/
def Obligations.HistoryKeptByEveryStep : Prop :=
  ∀ (ps : List Pixel) (s t : State), Emitted ps s → step s = .next t →
    (∃ qs, Emitted (ps ++ qs) t) ∨
    (Emitted [] t ∧ ∃ c ms, s.schedule = .host c :: ms ∧ (c = .reset ∨ ∃ input, c = .start input))

/-- The cache law and the counts (10 R26): once a pixel is emitted, the entry `prev` selects holds it, and in status DECODE, DONE
or DecodeTruncated the count is at most TOTAL, which FB holds; at DONE it is TOTAL. -/
def Obligations.CacheLawAndCounts : Prop :=
  ∀ (ps : List Pixel) (s : State), Inv s → Emitted ps s → 1 ≤ s.pixcnt →
    cacheRead s.index (slot s.prev) = s.prev ∧ ps.getLast? = some s.prev ∧
    s.pixcnt ≤ s.total ∧ s.total ≤ s.cfg.fbPixels ∧ (s.status = .done → s.pixcnt = s.total)
end

