-- ==== Sys2Proof/Laws/Memory.lean ====
section
/-!
SUPPORT. The laws of the framebuffer space and the index cache: a read after a write, and that every memory operation keeps the
canonical form (log 1).
-/

namespace Sys2Proof.Machine

theorem wf_nil : Memory.wf [] := ⟨List.Pairwise.nil, by simp⟩

theorem wf_cons {b : Nat} {w : Byte} {rest : Memory} :
    Memory.wf ((b, w) :: rest) ↔ (∀ c ∈ rest, b < c.1) ∧ w ≠ fbDefault ∧ Memory.wf rest := by
  simp only [Memory.wf, List.pairwise_cons, List.forall_mem_cons]
  tauto

theorem mem_fbErase {m : Memory} {a : Nat} {c : Host.Cell} : c ∈ fbErase m a ↔ c ∈ m ∧ c.1 ≠ a := by
  simp [fbErase]

theorem mem_fbInsert {m : Memory} {a : Nat} {v : Byte} {c : Host.Cell} :
    c ∈ fbInsert m a v ↔ c = (a, v) ∨ c ∈ m := by
  induction m with
  | nil => simp [fbInsert]
  | cons d rest ih =>
    simp only [fbInsert]
    split
    · simp
    · simp only [List.mem_cons, ih]
      tauto

theorem fbErase_wf {m : Memory} (a : Nat) (h : Memory.wf m) : Memory.wf (fbErase m a) :=
  ⟨h.1.filter _, fun c hc => h.2 c (mem_fbErase.mp hc).1⟩

theorem fbInsert_wf {m : Memory} {a : Nat} {v : Byte} (hv : v ≠ fbDefault) (ha : ∀ c ∈ m, c.1 ≠ a)
    (h : Memory.wf m) : Memory.wf (fbInsert m a v) := by
  induction m with
  | nil => exact wf_cons.mpr ⟨by simp, hv, wf_nil⟩
  | cons d rest ih =>
    obtain ⟨b, w⟩ := d
    obtain ⟨hab, hw, hr⟩ := wf_cons.mp h
    have hba : b ≠ a := ha (b, w) (by simp)
    simp only [fbInsert]
    split
    · next hlt =>
      refine wf_cons.mpr ⟨fun c hc => ?_, hv, h⟩
      rcases List.mem_cons.mp hc with rfl | hc
      · exact hlt
      · exact Nat.lt_trans hlt (hab c hc)
    · next hlt =>
      refine wf_cons.mpr ⟨fun c hc => ?_, hw, ih (fun c hc => ha c (by simp [hc])) hr⟩
      rcases mem_fbInsert.mp hc with rfl | hc
      · show b < a
        omega
      · exact hab c hc

/-- A store keeps the canonical form. -/
theorem fbWriteByte_wf {m : Memory} (a : Nat) (v : Byte) (h : Memory.wf m) : Memory.wf (fbWriteByte m a v) := by
  unfold fbWriteByte
  split
  · exact fbErase_wf a h
  · next hv => exact fbInsert_wf hv (fun c hc => (mem_fbErase.mp hc).2) (fbErase_wf a h)

theorem fbRead_fbErase (m : Memory) (a x : Nat) :
    fbRead (fbErase m a) x = if x = a then fbDefault else fbRead m x := by
  induction m with
  | nil => simp [fbErase, fbRead]
  | cons d rest ih =>
    obtain ⟨b, w⟩ := d
    by_cases hba : b = a
    · have he : fbErase ((b, w) :: rest) a = fbErase rest a := by simp [fbErase, hba]
      rw [he, ih]
      simp only [fbRead]
      split
      · rfl
      · rw [if_neg (by omega)]
    · have he : fbErase ((b, w) :: rest) a = (b, w) :: fbErase rest a := by simp [fbErase, hba]
      rw [he]
      simp only [fbRead, ih]
      split
      · rw [if_neg (by omega)]
      · rfl

theorem fbRead_fbInsert {m : Memory} {a : Nat} (v : Byte) (ha : ∀ c ∈ m, c.1 ≠ a) (x : Nat) :
    fbRead (fbInsert m a v) x = if x = a then v else fbRead m x := by
  induction m with
  | nil => rfl
  | cons d rest ih =>
    obtain ⟨b, w⟩ := d
    have hba : b ≠ a := ha (b, w) (by simp)
    simp only [fbInsert]
    split
    · rfl
    · simp only [fbRead, ih fun c hc => ha c (by simp [hc])]
      split
      · rw [if_neg (by omega)]
      · rfl

/-- A read after a store, in every memory: the value at its offset, every other byte as before. -/
@[simp] theorem fbRead_fbWriteByte (m : Memory) (a : Nat) (v : Byte) (x : Nat) :
    fbRead (fbWriteByte m a v) x = if x = a then v else fbRead m x := by
  unfold fbWriteByte
  split
  · next hv => rw [fbRead_fbErase, hv]
  · rw [fbRead_fbInsert v (fun c hc => (mem_fbErase.mp hc).2), fbRead_fbErase]
    split <;> rfl

/-- A store inside FB keeps every cell inside FB. -/
theorem fbWriteByte_inside {m : Memory} {bound a : Nat} (v : Byte) (ha : a < bound) (h : ∀ c ∈ m, c.1 < bound) :
    ∀ c ∈ fbWriteByte m a v, c.1 < bound := by
  intro c hc
  unfold fbWriteByte at hc
  split at hc
  · exact h c (mem_fbErase.mp hc).1
  · rcases mem_fbInsert.mp hc with rfl | hc
    · exact ha
    · exact h c (mem_fbErase.mp hc).1

/-- A 16-bit store keeps the canonical form. -/
theorem fbWriteHalf_wf {m : Memory} (off : Nat) (v : Half) (h : Memory.wf m) : Memory.wf (fbWriteHalf m off v) :=
  fbWriteByte_wf _ _ (fbWriteByte_wf _ _ h)

/-- A 16-bit store inside FB keeps every cell inside FB. -/
theorem fbWriteHalf_inside {m : Memory} {bound off : Nat} (v : Half) (ha : off + 2 ≤ bound)
    (h : ∀ c ∈ m, c.1 < bound) : ∀ c ∈ fbWriteHalf m off v, c.1 < bound :=
  fbWriteByte_inside _ (by omega) (fbWriteByte_inside _ (by omega) h)

/-- A read after a 16-bit store, in every memory. -/
theorem fbRead_fbWriteHalf (m : Memory) (off : Nat) (v : Half) (x : Nat) :
    fbRead (fbWriteHalf m off v) x =
      if x = off + 1 then lowByte v else if x = off then highByte v else fbRead m x := by
  simp only [fbWriteHalf, fbRead_fbWriteByte]

@[simp] theorem cacheRead_cacheWrite (cache : Vector Pixel 64) (i : Fin 64) (p : Pixel) (k : Fin 64) :
    cacheRead (cacheWrite cache i p) k = if k = i then p else cacheRead cache k := by
  simp only [cacheRead, cacheWrite, Vector.get_eq_getElem, Vector.getElem_set, Fin.ext_iff, eq_comm]

@[simp] theorem cacheRead_initialIndex (k : Fin 64) : cacheRead initialIndex k = zeroPixel := by
  simp [cacheRead, initialIndex, Vector.get_eq_getElem]

/-- The memory after RESET has the canonical form. -/
theorem reset_fb_wf : Memory.wf State.reset.fb := wf_nil

end Sys2Proof.Machine
end

