-- ==== Sys2Proof/Laws/State.lean ====
section
/-!
SUPPORT. One lemma per field per named update of the state, each true by unfolding the update.
-/

namespace Sys2Proof.Machine

/-! ### `raise` -/

@[simp] theorem raise_prev (e : ErrKind) (sub : ErrSub) (s : State) : (raise e sub s).prev = s.prev := rfl
@[simp] theorem raise_index (e : ErrKind) (sub : ErrSub) (s : State) : (raise e sub s).index = s.index := rfl
@[simp] theorem raise_sp (e : ErrKind) (sub : ErrSub) (s : State) : (raise e sub s).sp = s.sp := rfl
@[simp] theorem raise_hdrWidth (e : ErrKind) (sub : ErrSub) (s : State) : (raise e sub s).hdrWidth = s.hdrWidth := rfl
@[simp] theorem raise_hdrHeight (e : ErrKind) (sub : ErrSub) (s : State) : (raise e sub s).hdrHeight = s.hdrHeight := rfl
@[simp] theorem raise_hdrChannels (e : ErrKind) (sub : ErrSub) (s : State) : (raise e sub s).hdrChannels = s.hdrChannels := rfl
@[simp] theorem raise_hdrColorspace (e : ErrKind) (sub : ErrSub) (s : State) : (raise e sub s).hdrColorspace = s.hdrColorspace := rfl
@[simp] theorem raise_pixcnt (e : ErrKind) (sub : ErrSub) (s : State) : (raise e sub s).pixcnt = s.pixcnt := rfl
@[simp] theorem raise_status (e : ErrKind) (sub : ErrSub) (s : State) : (raise e sub s).status = .error := rfl
@[simp] theorem raise_err (e : ErrKind) (sub : ErrSub) (s : State) : (raise e sub s).err = e := rfl
@[simp] theorem raise_errSub (e : ErrKind) (sub : ErrSub) (s : State) : (raise e sub s).errSub = sub := rfl
@[simp] theorem raise_fb (e : ErrKind) (sub : ErrSub) (s : State) : (raise e sub s).fb = s.fb := rfl
@[simp] theorem raise_input (e : ErrKind) (sub : ErrSub) (s : State) : (raise e sub s).input = s.input := rfl
@[simp] theorem raise_cfg (e : ErrKind) (sub : ErrSub) (s : State) : (raise e sub s).cfg = s.cfg := rfl
@[simp] theorem raise_sink (e : ErrKind) (sub : ErrSub) (s : State) : (raise e sub s).sink = s.sink := rfl
@[simp] theorem raise_schedule (e : ErrKind) (sub : ErrSub) (s : State) : (raise e sub s).schedule = s.schedule := rfl
@[simp] theorem raise_readout (e : ErrKind) (sub : ErrSub) (s : State) : (raise e sub s).readout = s.readout := rfl
@[simp] theorem raise_total (e : ErrKind) (sub : ErrSub) (s : State) : (raise e sub s).total = s.total := rfl

/-! ### `emitPixel` -/

@[simp] theorem emitPixel_prev (p : Pixel) (s : State) : (emitPixel p s).prev = p := rfl
@[simp] theorem emitPixel_index (p : Pixel) (s : State) : (emitPixel p s).index = cacheWrite s.index (slot p) p := rfl
@[simp] theorem emitPixel_sp (p : Pixel) (s : State) : (emitPixel p s).sp = s.sp := rfl
@[simp] theorem emitPixel_hdrWidth (p : Pixel) (s : State) : (emitPixel p s).hdrWidth = s.hdrWidth := rfl
@[simp] theorem emitPixel_hdrHeight (p : Pixel) (s : State) : (emitPixel p s).hdrHeight = s.hdrHeight := rfl
@[simp] theorem emitPixel_hdrChannels (p : Pixel) (s : State) : (emitPixel p s).hdrChannels = s.hdrChannels := rfl
@[simp] theorem emitPixel_hdrColorspace (p : Pixel) (s : State) : (emitPixel p s).hdrColorspace = s.hdrColorspace := rfl
@[simp] theorem emitPixel_pixcnt (p : Pixel) (s : State) : (emitPixel p s).pixcnt = s.pixcnt + 1 := rfl
@[simp] theorem emitPixel_status (p : Pixel) (s : State) : (emitPixel p s).status = s.status := rfl
@[simp] theorem emitPixel_err (p : Pixel) (s : State) : (emitPixel p s).err = s.err := rfl
@[simp] theorem emitPixel_errSub (p : Pixel) (s : State) : (emitPixel p s).errSub = s.errSub := rfl
@[simp] theorem emitPixel_fb (p : Pixel) (s : State) : (emitPixel p s).fb = fbWriteHalf s.fb s.writeOffset (rgb565 p) := rfl
@[simp] theorem emitPixel_input (p : Pixel) (s : State) : (emitPixel p s).input = s.input := rfl
@[simp] theorem emitPixel_cfg (p : Pixel) (s : State) : (emitPixel p s).cfg = s.cfg := rfl
@[simp] theorem emitPixel_sink (p : Pixel) (s : State) : (emitPixel p s).sink = s.sink := rfl
@[simp] theorem emitPixel_schedule (p : Pixel) (s : State) : (emitPixel p s).schedule = s.schedule := rfl
@[simp] theorem emitPixel_readout (p : Pixel) (s : State) : (emitPixel p s).readout = s.readout := rfl
@[simp] theorem emitPixel_total (p : Pixel) (s : State) : (emitPixel p s).total = s.total := rfl

/-! ### `advance` -/

@[simp] theorem advance_prev (len : Nat) (s : State) : (advance len s).prev = s.prev := rfl
@[simp] theorem advance_index (len : Nat) (s : State) : (advance len s).index = s.index := rfl
@[simp] theorem advance_sp (len : Nat) (s : State) : (advance len s).sp = s.sp + BitVec.ofNat 32 len := rfl
@[simp] theorem advance_hdrWidth (len : Nat) (s : State) : (advance len s).hdrWidth = s.hdrWidth := rfl
@[simp] theorem advance_hdrHeight (len : Nat) (s : State) : (advance len s).hdrHeight = s.hdrHeight := rfl
@[simp] theorem advance_hdrChannels (len : Nat) (s : State) : (advance len s).hdrChannels = s.hdrChannels := rfl
@[simp] theorem advance_hdrColorspace (len : Nat) (s : State) : (advance len s).hdrColorspace = s.hdrColorspace := rfl
@[simp] theorem advance_pixcnt (len : Nat) (s : State) : (advance len s).pixcnt = s.pixcnt := rfl
@[simp] theorem advance_status (len : Nat) (s : State) : (advance len s).status = s.status := rfl
@[simp] theorem advance_err (len : Nat) (s : State) : (advance len s).err = s.err := rfl
@[simp] theorem advance_errSub (len : Nat) (s : State) : (advance len s).errSub = s.errSub := rfl
@[simp] theorem advance_fb (len : Nat) (s : State) : (advance len s).fb = s.fb := rfl
@[simp] theorem advance_input (len : Nat) (s : State) : (advance len s).input = s.input := rfl
@[simp] theorem advance_cfg (len : Nat) (s : State) : (advance len s).cfg = s.cfg := rfl
@[simp] theorem advance_sink (len : Nat) (s : State) : (advance len s).sink = s.sink := rfl
@[simp] theorem advance_schedule (len : Nat) (s : State) : (advance len s).schedule = s.schedule := rfl
@[simp] theorem advance_readout (len : Nat) (s : State) : (advance len s).readout = s.readout := rfl
@[simp] theorem advance_total (len : Nat) (s : State) : (advance len s).total = s.total := rfl

/-! ### `settle` -/

@[simp] theorem settle_prev (s : State) : (settle s).prev = s.prev := rfl
@[simp] theorem settle_index (s : State) : (settle s).index = s.index := rfl
@[simp] theorem settle_sp (s : State) : (settle s).sp = s.sp := rfl
@[simp] theorem settle_hdrWidth (s : State) : (settle s).hdrWidth = s.hdrWidth := rfl
@[simp] theorem settle_hdrHeight (s : State) : (settle s).hdrHeight = s.hdrHeight := rfl
@[simp] theorem settle_hdrChannels (s : State) : (settle s).hdrChannels = s.hdrChannels := rfl
@[simp] theorem settle_hdrColorspace (s : State) : (settle s).hdrColorspace = s.hdrColorspace := rfl
@[simp] theorem settle_pixcnt (s : State) : (settle s).pixcnt = s.pixcnt := rfl
@[simp] theorem settle_status (s : State) : (settle s).status = if s.pixcnt = s.total then .done else s.status := rfl
@[simp] theorem settle_err (s : State) : (settle s).err = s.err := rfl
@[simp] theorem settle_errSub (s : State) : (settle s).errSub = s.errSub := rfl
@[simp] theorem settle_fb (s : State) : (settle s).fb = s.fb := rfl
@[simp] theorem settle_input (s : State) : (settle s).input = s.input := rfl
@[simp] theorem settle_cfg (s : State) : (settle s).cfg = s.cfg := rfl
@[simp] theorem settle_sink (s : State) : (settle s).sink = s.sink := rfl
@[simp] theorem settle_schedule (s : State) : (settle s).schedule = s.schedule := rfl
@[simp] theorem settle_readout (s : State) : (settle s).readout = s.readout := rfl
@[simp] theorem settle_total (s : State) : (settle s).total = s.total := rfl

/-! ### `finishChunk` -/

@[simp] theorem finishChunk_prev (len : Nat) (s : State) : (finishChunk len s).prev = s.prev := rfl
@[simp] theorem finishChunk_index (len : Nat) (s : State) : (finishChunk len s).index = s.index := rfl
@[simp] theorem finishChunk_sp (len : Nat) (s : State) : (finishChunk len s).sp = s.sp + BitVec.ofNat 32 len := rfl
@[simp] theorem finishChunk_hdrWidth (len : Nat) (s : State) : (finishChunk len s).hdrWidth = s.hdrWidth := rfl
@[simp] theorem finishChunk_hdrHeight (len : Nat) (s : State) : (finishChunk len s).hdrHeight = s.hdrHeight := rfl
@[simp] theorem finishChunk_hdrChannels (len : Nat) (s : State) : (finishChunk len s).hdrChannels = s.hdrChannels := rfl
@[simp] theorem finishChunk_hdrColorspace (len : Nat) (s : State) : (finishChunk len s).hdrColorspace = s.hdrColorspace := rfl
@[simp] theorem finishChunk_pixcnt (len : Nat) (s : State) : (finishChunk len s).pixcnt = s.pixcnt := rfl
@[simp] theorem finishChunk_status (len : Nat) (s : State) : (finishChunk len s).status = if s.pixcnt = s.total then .done else s.status := rfl
@[simp] theorem finishChunk_err (len : Nat) (s : State) : (finishChunk len s).err = s.err := rfl
@[simp] theorem finishChunk_errSub (len : Nat) (s : State) : (finishChunk len s).errSub = s.errSub := rfl
@[simp] theorem finishChunk_fb (len : Nat) (s : State) : (finishChunk len s).fb = s.fb := rfl
@[simp] theorem finishChunk_input (len : Nat) (s : State) : (finishChunk len s).input = s.input := rfl
@[simp] theorem finishChunk_cfg (len : Nat) (s : State) : (finishChunk len s).cfg = s.cfg := rfl
@[simp] theorem finishChunk_sink (len : Nat) (s : State) : (finishChunk len s).sink = s.sink := rfl
@[simp] theorem finishChunk_schedule (len : Nat) (s : State) : (finishChunk len s).schedule = s.schedule := rfl
@[simp] theorem finishChunk_readout (len : Nat) (s : State) : (finishChunk len s).readout = s.readout := rfl
@[simp] theorem finishChunk_total (len : Nat) (s : State) : (finishChunk len s).total = s.total := rfl

/-! ### `loadHeader` -/

@[simp] theorem loadHeader_prev (w h : Word) (c cs : Byte) (s : State) : (loadHeader w h c cs s).prev = s.prev := rfl
@[simp] theorem loadHeader_index (w h : Word) (c cs : Byte) (s : State) : (loadHeader w h c cs s).index = s.index := rfl
@[simp] theorem loadHeader_sp (w h : Word) (c cs : Byte) (s : State) : (loadHeader w h c cs s).sp = s.sp := rfl
@[simp] theorem loadHeader_hdrWidth (w h : Word) (c cs : Byte) (s : State) : (loadHeader w h c cs s).hdrWidth = w := rfl
@[simp] theorem loadHeader_hdrHeight (w h : Word) (c cs : Byte) (s : State) : (loadHeader w h c cs s).hdrHeight = h := rfl
@[simp] theorem loadHeader_hdrChannels (w h : Word) (c cs : Byte) (s : State) : (loadHeader w h c cs s).hdrChannels = c := rfl
@[simp] theorem loadHeader_hdrColorspace (w h : Word) (c cs : Byte) (s : State) : (loadHeader w h c cs s).hdrColorspace = cs := rfl
@[simp] theorem loadHeader_pixcnt (w h : Word) (c cs : Byte) (s : State) : (loadHeader w h c cs s).pixcnt = s.pixcnt := rfl
@[simp] theorem loadHeader_status (w h : Word) (c cs : Byte) (s : State) : (loadHeader w h c cs s).status = s.status := rfl
@[simp] theorem loadHeader_err (w h : Word) (c cs : Byte) (s : State) : (loadHeader w h c cs s).err = s.err := rfl
@[simp] theorem loadHeader_errSub (w h : Word) (c cs : Byte) (s : State) : (loadHeader w h c cs s).errSub = s.errSub := rfl
@[simp] theorem loadHeader_fb (w h : Word) (c cs : Byte) (s : State) : (loadHeader w h c cs s).fb = s.fb := rfl
@[simp] theorem loadHeader_input (w h : Word) (c cs : Byte) (s : State) : (loadHeader w h c cs s).input = s.input := rfl
@[simp] theorem loadHeader_cfg (w h : Word) (c cs : Byte) (s : State) : (loadHeader w h c cs s).cfg = s.cfg := rfl
@[simp] theorem loadHeader_sink (w h : Word) (c cs : Byte) (s : State) : (loadHeader w h c cs s).sink = s.sink := rfl
@[simp] theorem loadHeader_schedule (w h : Word) (c cs : Byte) (s : State) : (loadHeader w h c cs s).schedule = s.schedule := rfl
@[simp] theorem loadHeader_readout (w h : Word) (c cs : Byte) (s : State) : (loadHeader w h c cs s).readout = s.readout := rfl

/-! ### `enterDecode` -/

@[simp] theorem enterDecode_prev (s : State) : (enterDecode s).prev = s.prev := rfl
@[simp] theorem enterDecode_index (s : State) : (enterDecode s).index = s.index := rfl
@[simp] theorem enterDecode_sp (s : State) : (enterDecode s).sp = BitVec.ofNat 32 Config.headerBytes := rfl
@[simp] theorem enterDecode_hdrWidth (s : State) : (enterDecode s).hdrWidth = s.hdrWidth := rfl
@[simp] theorem enterDecode_hdrHeight (s : State) : (enterDecode s).hdrHeight = s.hdrHeight := rfl
@[simp] theorem enterDecode_hdrChannels (s : State) : (enterDecode s).hdrChannels = s.hdrChannels := rfl
@[simp] theorem enterDecode_hdrColorspace (s : State) : (enterDecode s).hdrColorspace = s.hdrColorspace := rfl
@[simp] theorem enterDecode_pixcnt (s : State) : (enterDecode s).pixcnt = s.pixcnt := rfl
@[simp] theorem enterDecode_status (s : State) : (enterDecode s).status = .decode := rfl
@[simp] theorem enterDecode_err (s : State) : (enterDecode s).err = s.err := rfl
@[simp] theorem enterDecode_errSub (s : State) : (enterDecode s).errSub = s.errSub := rfl
@[simp] theorem enterDecode_fb (s : State) : (enterDecode s).fb = s.fb := rfl
@[simp] theorem enterDecode_input (s : State) : (enterDecode s).input = s.input := rfl
@[simp] theorem enterDecode_cfg (s : State) : (enterDecode s).cfg = s.cfg := rfl
@[simp] theorem enterDecode_sink (s : State) : (enterDecode s).sink = s.sink := rfl
@[simp] theorem enterDecode_schedule (s : State) : (enterDecode s).schedule = s.schedule := rfl
@[simp] theorem enterDecode_readout (s : State) : (enterDecode s).readout = s.readout := rfl
@[simp] theorem enterDecode_total (s : State) : (enterDecode s).total = s.total := rfl

/-! ### `beginDecode` -/

@[simp] theorem beginDecode_prev (input : List Byte) (s : State) : (beginDecode input s).prev = initialPrev := rfl
@[simp] theorem beginDecode_index (input : List Byte) (s : State) : (beginDecode input s).index = initialIndex := rfl
@[simp] theorem beginDecode_sp (input : List Byte) (s : State) : (beginDecode input s).sp = 0 := rfl
@[simp] theorem beginDecode_hdrWidth (input : List Byte) (s : State) : (beginDecode input s).hdrWidth = 0 := rfl
@[simp] theorem beginDecode_hdrHeight (input : List Byte) (s : State) : (beginDecode input s).hdrHeight = 0 := rfl
@[simp] theorem beginDecode_hdrChannels (input : List Byte) (s : State) : (beginDecode input s).hdrChannels = 0 := rfl
@[simp] theorem beginDecode_hdrColorspace (input : List Byte) (s : State) : (beginDecode input s).hdrColorspace = 0 := rfl
@[simp] theorem beginDecode_pixcnt (input : List Byte) (s : State) : (beginDecode input s).pixcnt = 0 := rfl
@[simp] theorem beginDecode_status (input : List Byte) (s : State) : (beginDecode input s).status = .header := rfl
@[simp] theorem beginDecode_err (input : List Byte) (s : State) : (beginDecode input s).err = .none := rfl
@[simp] theorem beginDecode_errSub (input : List Byte) (s : State) : (beginDecode input s).errSub = .none := rfl
@[simp] theorem beginDecode_fb (input : List Byte) (s : State) : (beginDecode input s).fb = s.fb := rfl
@[simp] theorem beginDecode_input (input : List Byte) (s : State) : (beginDecode input s).input = input := rfl
@[simp] theorem beginDecode_cfg (input : List Byte) (s : State) : (beginDecode input s).cfg = s.cfg := rfl
@[simp] theorem beginDecode_sink (input : List Byte) (s : State) : (beginDecode input s).sink = s.sink := rfl
@[simp] theorem beginDecode_schedule (input : List Byte) (s : State) : (beginDecode input s).schedule = s.schedule := rfl
@[simp] theorem beginDecode_readout (input : List Byte) (s : State) : (beginDecode input s).readout = s.readout := rfl

/-! ### `handToHost` -/

@[simp] theorem handToHost_prev (v : Nat) (s : State) : (handToHost v s).prev = s.prev := rfl
@[simp] theorem handToHost_index (v : Nat) (s : State) : (handToHost v s).index = s.index := rfl
@[simp] theorem handToHost_sp (v : Nat) (s : State) : (handToHost v s).sp = s.sp := rfl
@[simp] theorem handToHost_hdrWidth (v : Nat) (s : State) : (handToHost v s).hdrWidth = s.hdrWidth := rfl
@[simp] theorem handToHost_hdrHeight (v : Nat) (s : State) : (handToHost v s).hdrHeight = s.hdrHeight := rfl
@[simp] theorem handToHost_hdrChannels (v : Nat) (s : State) : (handToHost v s).hdrChannels = s.hdrChannels := rfl
@[simp] theorem handToHost_hdrColorspace (v : Nat) (s : State) : (handToHost v s).hdrColorspace = s.hdrColorspace := rfl
@[simp] theorem handToHost_pixcnt (v : Nat) (s : State) : (handToHost v s).pixcnt = s.pixcnt := rfl
@[simp] theorem handToHost_status (v : Nat) (s : State) : (handToHost v s).status = s.status := rfl
@[simp] theorem handToHost_err (v : Nat) (s : State) : (handToHost v s).err = s.err := rfl
@[simp] theorem handToHost_errSub (v : Nat) (s : State) : (handToHost v s).errSub = s.errSub := rfl
@[simp] theorem handToHost_fb (v : Nat) (s : State) : (handToHost v s).fb = s.fb := rfl
@[simp] theorem handToHost_input (v : Nat) (s : State) : (handToHost v s).input = s.input := rfl
@[simp] theorem handToHost_cfg (v : Nat) (s : State) : (handToHost v s).cfg = s.cfg := rfl
@[simp] theorem handToHost_sink (v : Nat) (s : State) : (handToHost v s).sink = s.sink := rfl
@[simp] theorem handToHost_schedule (v : Nat) (s : State) : (handToHost v s).schedule = s.schedule := rfl
@[simp] theorem handToHost_readout (v : Nat) (s : State) : (handToHost v s).readout = some v := rfl
@[simp] theorem handToHost_total (v : Nat) (s : State) : (handToHost v s).total = s.total := rfl
@[simp] theorem loadHeader_total (w h : Word) (c cs : Byte) (s : State) :
    (loadHeader w h c cs s).total = w.toNat * h.toNat := rfl

end Sys2Proof.Machine
end

