-- ==== Sys2Proof/Laws/Ops.lean ====
section
/-!
SUPPORT. For each shared operation, once, everything it can do; callers cite these and do not unfold the operation.
-/

namespace Sys2Proof.Machine

theorem andThen_next {o : Result} {k : State → Result} {t : State} :
    andThen o k = .next t ↔ ∃ m, o = .next m ∧ k m = .next t := by
  cases o <;> simp [andThen]

/-- `emit` answers a next state exactly where the pixel's two bytes are inside FB, and then it is `emitPixel`. -/
theorem emit_next {p : Pixel} {s t : State} :
    emit p s = .next t ↔ s.writeOffset + 2 ≤ s.cfg.fbBytes ∧ t = emitPixel p s := by
  unfold emit
  split
  · next h => simp [h, eq_comm]
  · next h => simp [h]

/-- The state after `n` copies of a pixel, without the bound check. -/
def emitPixels : Nat → Pixel → State → State
  | 0, _, s => s
  | n + 1, p, s => emitPixels n p (emitPixel p s)

/-- `emitCopies` answers a next state exactly where all its pixels are inside FB, and then it is `emitPixels`. -/
theorem emitCopies_next {n : Nat} {p : Pixel} {s t : State} :
    emitCopies n p s = .next t ↔ (n = 0 ∨ s.pixcnt + n ≤ s.cfg.fbPixels) ∧ t = emitPixels n p s := by
  induction n generalizing s with
  | zero => simp [emitCopies, emitPixels, eq_comm]
  | succ n ih =>
    simp only [emitCopies, emitPixels, andThen_next, emit_next]
    constructor
    · rintro ⟨m, ⟨hm, rfl⟩, h⟩
      obtain ⟨hn, rfl⟩ := ih.mp h
      simp only [State.writeOffset, Config.fbBytes, emitPixel_pixcnt, emitPixel_cfg] at hm hn
      exact ⟨by omega, rfl⟩
    · rintro ⟨hn, rfl⟩
      refine ⟨emitPixel p s, ⟨?_, rfl⟩, ih.mpr ⟨?_, rfl⟩⟩
      · simp only [State.writeOffset, Config.fbBytes]
        omega
      · simp only [emitPixel_pixcnt, emitPixel_cfg]
        omega

/-! ### What `n` copies do to each field -/

@[simp] theorem emitPixels_pixcnt (n : Nat) (p : Pixel) (s : State) : (emitPixels n p s).pixcnt = s.pixcnt + n := by
  induction n generalizing s with
  | zero => rfl
  | succ n ih => simp only [emitPixels, ih, emitPixel_pixcnt]; omega

theorem emitPixels_prev {n : Nat} (hn : 1 ≤ n) (p : Pixel) (s : State) : (emitPixels n p s).prev = p := by
  induction n generalizing s with
  | zero => omega
  | succ n ih =>
    rcases Nat.eq_zero_or_pos n with rfl | h
    · rfl
    · exact ih h _

theorem emitPixels_index {n : Nat} (hn : 1 ≤ n) (p : Pixel) (s : State) (k : Fin 64) :
    cacheRead (emitPixels n p s).index k = if k = slot p then p else cacheRead s.index k := by
  induction n generalizing s with
  | zero => omega
  | succ n ih =>
    rcases Nat.eq_zero_or_pos n with rfl | h
    · simp [emitPixels]
    · simp only [emitPixels]
      rw [ih h, emitPixel_index, cacheRead_cacheWrite]
      split <;> rfl

/-- Every byte of FB after `n` copies: the copies' two bytes each, every other byte as before. -/
theorem emitPixels_fb (n : Nat) (p : Pixel) (s : State) (a : Nat) :
    fbRead (emitPixels n p s).fb a =
      if 2 * s.pixcnt ≤ a ∧ a < 2 * (s.pixcnt + n) then
        if a % 2 = 0 then highByte (rgb565 p) else lowByte (rgb565 p)
      else fbRead s.fb a := by
  induction n generalizing s with
  | zero => rw [if_neg (by omega)]; rfl
  | succ n ih =>
    simp only [emitPixels, ih, emitPixel_pixcnt, emitPixel_fb, fbRead_fbWriteHalf, State.writeOffset]
    split_ifs <;> first | rfl | omega

theorem emitPixels_fb_wf {n : Nat} {p : Pixel} {s : State} (h : s.fb.wf) : (emitPixels n p s).fb.wf := by
  induction n generalizing s with
  | zero => exact h
  | succ n ih => exact ih (fbWriteHalf_wf _ _ h)

theorem emitPixels_fb_inside {n : Nat} {p : Pixel} {s : State} (hn : n = 0 ∨ s.pixcnt + n ≤ s.cfg.fbPixels)
    (h : ∀ c ∈ s.fb, c.1 < s.cfg.fbBytes) : ∀ c ∈ (emitPixels n p s).fb, c.1 < s.cfg.fbBytes := by
  induction n generalizing s with
  | zero => exact h
  | succ n ih =>
    refine ih (s := emitPixel p s) (by simp only [emitPixel_pixcnt, emitPixel_cfg]; omega) ?_
    exact fbWriteHalf_inside _ (by simp only [State.writeOffset, emitPixel_cfg, Config.fbBytes]; omega) h

/-- What `n` copies leave alone. -/
theorem emitPixels_frame (n : Nat) (p : Pixel) (s : State) :
    emitPixels n p s =
      { s with
        prev := (emitPixels n p s).prev, index := (emitPixels n p s).index,
        fb := (emitPixels n p s).fb, pixcnt := (emitPixels n p s).pixcnt } := by
  induction n generalizing s with
  | zero => rfl
  | succ n ih => simp only [emitPixels]; rw [ih]; rfl

@[simp] theorem emitPixels_status (n : Nat) (p : Pixel) (s : State) : (emitPixels n p s).status = s.status := by
  rw [emitPixels_frame]

@[simp] theorem emitPixels_sp (n : Nat) (p : Pixel) (s : State) : (emitPixels n p s).sp = s.sp := by
  rw [emitPixels_frame]

@[simp] theorem emitPixels_cfg (n : Nat) (p : Pixel) (s : State) : (emitPixels n p s).cfg = s.cfg := by
  rw [emitPixels_frame]

@[simp] theorem emitPixels_input (n : Nat) (p : Pixel) (s : State) : (emitPixels n p s).input = s.input := by
  rw [emitPixels_frame]

@[simp] theorem emitPixels_total (n : Nat) (p : Pixel) (s : State) : (emitPixels n p s).total = s.total := by
  rw [emitPixels_frame]
  rfl

/-- Everything a chunk step can do: outside DECODE nothing, in DECODE the copies inside FB and the end of the chunk. -/
theorem chunkStep_next {len n : Nat} {p : Pixel} {s t : State} :
    chunkStep len n p s = .next t ↔
      (s.status ≠ .decode ∧ t = s) ∨
      (s.status = .decode ∧ (n = 0 ∨ s.pixcnt + n ≤ s.cfg.fbPixels) ∧ t = finishChunk len (emitPixels n p s)) := by
  unfold chunkStep
  split
  · next h =>
    simp only [h, andThen_next, emitCopies_next]
    constructor
    · rintro ⟨m, ⟨hn, rfl⟩, hm⟩
      cases hm
      exact .inr ⟨trivial, hn, rfl⟩
    · rintro (⟨h', -⟩ | ⟨-, hn, rfl⟩)
      · exact absurd rfl h'
      · exact ⟨_, ⟨hn, rfl⟩, rfl⟩
  · next h => simp [h, eq_comm]

/-- Everything a chunk's meaning can do: it is a chunk step of some length, number of copies and pixel. -/
theorem exec_chunk {i : Instr} (h : i.region = .chunks) (s : State) :
    ∃ n p, exec i s = chunkStep i.byteLength n p s ∧ (1 ≤ s.total - s.pixcnt → i.wellFormed = true → 1 ≤ n) ∧
      (1 ≤ s.total - s.pixcnt → n ≤ s.total - s.pixcnt) := by
  cases i with
  | rgb r g b => exact ⟨1, _, rfl, fun _ _ => le_refl _, fun h => h⟩
  | rgba r g b a => exact ⟨1, _, rfl, fun _ _ => le_refl _, fun h => h⟩
  | index k => exact ⟨1, _, rfl, fun _ _ => le_refl _, fun h => h⟩
  | diff dr dg db => exact ⟨1, _, rfl, fun _ _ => le_refl _, fun h => h⟩
  | luma dg drDg dbDg => exact ⟨1, _, rfl, fun _ _ => le_refl _, fun h => h⟩
  | run n =>
    refine ⟨min n (s.total - s.pixcnt), _, rfl, fun hm hw => ?_, fun _ => Nat.min_le_right _ _⟩
    have : 1 ≤ n ∧ n ≤ Config.maxRun := of_decide_eq_true hw
    omega
  | header w h c cs => cases h
  | endMarker => cases h

/-- Everything a header's meaning can do: outside HEADER nothing; a zero dimension or an image larger than FB is an error,
anything else enters DECODE. -/
theorem execHeader_next {w h : Word} {c cs : Byte} {s t : State} :
    execHeader w h c cs s = .next t ↔
      (s.status ≠ .header ∧ t = s) ∨
      (s.status = .header ∧ (w = 0 ∨ h = 0) ∧ t = raise .headerInvalid .zeroDimension s) ∨
      (s.status = .header ∧ w ≠ 0 ∧ h ≠ 0 ∧ s.cfg.fbPixels < w.toNat * h.toNat ∧
        t = raise .capacityExceeded .none (loadHeader w h c cs s)) ∨
      (s.status = .header ∧ w ≠ 0 ∧ h ≠ 0 ∧ w.toNat * h.toNat ≤ s.cfg.fbPixels ∧
        t = enterDecode (loadHeader w h c cs s)) := by
  unfold execHeader
  constructor
  · intro e
    split at e
    · next hs =>
      split at e
      · next hz => cases e; exact .inr (.inl ⟨hs, hz, rfl⟩)
      · next hz =>
        obtain ⟨hw, hh⟩ := not_or.mp hz
        dsimp only at e
        split at e
        · next hc => cases e; exact .inr (.inr (.inl ⟨hs, hw, hh, hc, rfl⟩))
        · next hc => cases e; exact .inr (.inr (.inr ⟨hs, hw, hh, Nat.le_of_not_lt hc, rfl⟩))
    · next hs => cases e; exact .inl ⟨hs, rfl⟩
  · rintro (⟨hs, rfl⟩ | ⟨hs, hz, rfl⟩ | ⟨hs, hw, hh, hc, rfl⟩ | ⟨hs, hw, hh, hc, rfl⟩)
    · rw [if_neg hs]
    · rw [if_pos hs, if_pos hz]
    · rw [if_pos hs, if_neg (by tauto)]
      exact if_pos hc
    · rw [if_pos hs, if_neg (by tauto)]
      exact if_neg (Nat.not_lt.mpr hc)

/-- Everything a block move can do: nothing is enabled, or a fetch is rejected, or the decoded instruction runs. -/
theorem blockStep_cases (s : State) :
    (fetch s = none ∧ blockStep s = .next s) ∨
    (∃ why, fetch s = some (.rejected why) ∧ blockStep s = .next (raiseRejection why s)) ∨
    (∃ i rest, fetch s = some (.instr i rest) ∧ blockStep s = exec i s) := by
  unfold blockStep
  cases h : fetch s with
  | none => exact .inl ⟨rfl, rfl⟩
  | some d =>
    cases d with
    | instr i rest => exact .inr (.inr ⟨i, rest, rfl, rfl⟩)
    | rejected why => exact .inr (.inl ⟨why, rfl, rfl⟩)

theorem step_of_no_schedule {s : State} (h : s.schedule = []) : step s = blockStep s := by
  unfold step takeMove
  rw [h]

theorem step_of_schedule {s : State} {m : Move} {ms : List Move} (h : s.schedule = m :: ms) :
    step s = runMove m { s with schedule := ms } := by
  unfold step takeMove
  rw [h]

/-- One more step of a run, through a next state. -/
theorem run_succ {s t : State} (h : step s = .next t) (k : Nat) :
    Host.Core.run core (k + 1) s = Host.Core.run core k t := by
  have h' : core.step s = .next t := h
  simp [Host.Core.run, h']

end Sys2Proof.Machine
end

