-- ==== Sys2Proof/Laws/PerInstr.lean ====
section
/-!
SUPPORT. The family EncodedLength: an instruction is encoded in as many bytes as spec/opcode_table.json gives its row.
-/

namespace Sys2Proof.Laws.EncodedLength

/-- The encoding has the length of the instruction's row (30 R54). -/
def Statement (i : Instr) : Prop := (encode i).length = i.byteLength

theorem rgb (r g b : Byte) : Statement (.rgb r g b) := rfl

theorem rgba (r g b a : Byte) : Statement (.rgba r g b a) := rfl

theorem index (k : Fin 64) : Statement (.index k) := rfl

theorem diff (dr dg db : Int) : Statement (.diff dr dg db) := rfl

theorem luma (dg drDg dbDg : Int) : Statement (.luma dg drDg dbDg) := rfl

theorem run (n : Nat) : Statement (.run n) := rfl

theorem header (width height : Word) (channels colorspace : Byte) :
    Statement (.header width height channels colorspace) := rfl

theorem endMarker : Statement .endMarker := rfl

end Sys2Proof.Laws.EncodedLength
end

