-- ==== Sys2Proof/Tests/Slice0.lean ====
section
/-!
SUPPORT. Tests of the model against the vectors of spec/95_test_vectors.md and the worked examples of the rules (each test names
its vector), the smoke test of WellFormed, and one witness for the hypotheses of each statement that has any.
-/

namespace Sys2Proof.Tests

open Sys2Proof Sys2Proof.Machine

/-! ### WellFormed refuses (30 R50, R60, R61) -/

theorem test_wf_diff_low : (Instr.diff (-3) 0 0).wellFormed = false := by decide
theorem test_wf_diff_high : (Instr.diff 0 2 0).wellFormed = false := by decide
theorem test_wf_diff_blue : (Instr.diff 0 0 2).wellFormed = false := by decide
theorem test_wf_luma_green : (Instr.luma 32 0 0).wellFormed = false := by decide
theorem test_wf_luma_red : (Instr.luma 0 (-9) 0).wellFormed = false := by decide
theorem test_wf_luma_blue : (Instr.luma 0 0 8).wellFormed = false := by decide
theorem test_wf_run_zero : (Instr.run 0).wellFormed = false := by decide
theorem test_wf_run_long : (Instr.run 63).wellFormed = false := by decide
theorem test_wf_header_width : (Instr.header 0 5 4 0).wellFormed = false := by decide
theorem test_wf_header_height : (Instr.header 5 0 4 0).wellFormed = false := by decide
theorem test_wf_accepts : ((Instr.diff (-2) 1 0).wellFormed && (Instr.luma (-32) 7 (-8)).wellFormed &&
    (Instr.run 62).wellFormed && (Instr.header 1 1 7 200).wellFormed) = true := by decide

/-! ### Decode: a word of each row written out bit by bit from its encoding (30 R54, opcode_table.json) -/

/-- RGB: 11111110 and three bytes; V-RGB-2, whose payload holds tag values. -/
theorem test_decode_rgb : decodeChunk [0b11111110, 0xFE, 0xFF, 0x00] = .instr (.rgb 254 255 0) [] := by decide
/-- RGBA: 11111111 and four bytes; V-RGBA-1. -/
theorem test_decode_rgba : decodeChunk [0b11111111, 1, 2, 3, 4, 5] = .instr (.rgba 1 2 3 4) [5] := by decide
/-- INDEX: 00iiiiii; V-IDX-2. -/
theorem test_decode_index : decodeChunk [0b00111111] = .instr (.index 63) [] := by decide
/-- DIFF: 01rrggbb; V-DIFF-7 (0x72 = 01 11 00 10). -/
theorem test_decode_diff : decodeChunk [0b01110010] = .instr (.diff 1 (-2) 0) [] := by decide
/-- LUMA: 10gggggg rrrrbbbb; V-LUMA-8 (9B 3C). -/
theorem test_decode_luma : decodeChunk [0b10011011, 0b00111100] = .instr (.luma (-5) (-5) 4) [] := by decide
/-- RUN: 11nnnnnn; V-RUN-3 (C4: five copies). -/
theorem test_decode_run : decodeChunk [0b11000100] = .instr (.run 5) [] := by decide
/-- RUN's longest, directly below RGB's tag; V-RUN-2. -/
theorem test_decode_run_longest : decodeChunk [0b11111101] = .instr (.run 62) [] := by decide
/-- HEADER; V-HDR-10, whose width shows the byte order. -/
theorem test_decode_header : decodeHeader [0x71, 0x6F, 0x69, 0x66, 1, 2, 3, 4, 0, 0, 0, 1, 3, 1, 0] =
    .instr (.header 16909060 1 3 1) [0] := by decide
/-- END (30 R53). -/
theorem test_decode_end : decodeEnd [0, 0, 0, 0, 0, 0, 0, 1] = .instr .endMarker [] := by decide
/-- V-RGB-4, V-RGBA-5, V-LUMA-9: cut payloads. -/
theorem test_decode_cut : decodeChunk [0xFE, 1, 2] = .rejected .chunkTruncated ∧
    decodeChunk [0xFF, 1, 2, 3] = .rejected .chunkTruncated ∧ decodeChunk [0xA0] = .rejected .chunkTruncated := by decide
/-- V-HDR-3 (length before magic) and V-HDR-4 (case-sensitive magic). -/
theorem test_decode_header_rejects : decodeHeader (List.replicate 13 0) = .rejected .headerTruncated ∧
    decodeHeader [0x71, 0x6F, 0x69, 0x46, 0, 0, 0, 1, 0, 0, 0, 1, 4, 0, 0] = .rejected .badMagic := by decide
/-- The listing of P2 (95 Part 3): each line's bytes. -/
theorem test_encode_p2 : encode (.rgba 254 1 0 200) ++ encode (.luma 3 2 (-8)) ++ encode (.diff (-2) (-2) 1) ++
    encode (.index 23) ++ encode (.run 2) = [0xFF, 0xFE, 0x01, 0x00, 0xC8, 0xA3, 0xA0, 0x43, 0x17, 0xC1] := by decide
/-- A table word of each row, first byte least significant. -/
theorem test_table_words : decodeTableWord 32 0x030201FE = some (.rgb 1 2 3) ∧ decodeTableWord 8 0xFF = some (.rgba 0 0 0 0) ∧
    decodeTableWord 8 0x3F = some (.index 63) ∧ decodeTableWord 8 0x55 = some (.diff (-1) (-1) (-1)) ∧
    decodeTableWord 16 0x88A0 = some (.luma 0 0 0) ∧ decodeTableWord 8 0xC0 = some (.run 1) ∧
    decodeTableWord 112 0x00030100000001000000666 = none ∧
    decodeTableWord 112 0x000301000000010000006669_6F71 = some (.header 1 1 3 0) ∧
    decodeTableWord 64 (2 ^ 56) = some .endMarker := by decide

/-! ### One step (95 section 2.3: status DECODE, 100 x 100, `pixcnt = 0`, cache all zero unless the vector says otherwise) -/

/-- The state of 95 section 2.3, with the chunk's bytes after 14 bytes of header. -/
def chunkState (prev : Pixel) (bytes : List Byte) : State :=
  { State.reset with
    prev := prev, status := .decode, hdrWidth := 100, hdrHeight := 100, sp := 14,
    input := List.replicate 14 0 ++ bytes }

/-- The same with one cache entry written. -/
def withEntry (k : Fin 64) (p : Pixel) (s : State) : State := { s with index := cacheWrite s.index k p }

/-- The status HEADER state of a stream. -/
def headerState (bytes : List Byte) : State := { State.reset with status := .header, input := bytes }

/-- The state with a host command coming. -/
def withCommand (c : HostCommand) (s : State) : State := { s with schedule := [.host c] }

/-- What a vector's row shows of a chunk step: `prev`, one cache entry, `sp`, `pixcnt`, two FB bytes. -/
def look (k : Fin 64) (off : Nat) (o : Result) : Option (Pixel × Pixel × Nat × Nat × Byte × Byte) :=
  (nextState o).map fun t => (t.prev, cacheRead t.index k, t.sp.toNat, t.pixcnt, fbRead t.fb off, fbRead t.fb (off + 1))

/-- What a header vector shows: status, `err`, `err_sub`, `sp`, the header registers. -/
def lookHeader (o : Result) : Option ((Status × ErrKind × ErrSub) × List Nat) :=
  (nextState o).map fun t =>
    ((t.status, t.err, t.errSub),
      [t.sp.toNat, t.hdrWidth.toNat, t.hdrHeight.toNat, t.hdrChannels.toNat, t.hdrColorspace.toNat])

/-- V-RGB-2: alpha inherited, payload FE and FF are data. -/
theorem test_rgb : look 4 0 (step (chunkState ⟨1, 2, 3, 77⟩ [0xFE, 0xFE, 0xFF, 0x00])) =
    some (⟨254, 255, 0, 77⟩, ⟨254, 255, 0, 77⟩, 18, 1, 0xFF, 0xE0) := by decide
/-- V-RGB-4: truncated; nothing but the error registers changes. -/
theorem test_rgb_cut : nextState (step (chunkState ⟨0, 0, 0, 255⟩ [0xFE, 1, 2])) =
    some { chunkState ⟨0, 0, 0, 255⟩ [0xFE, 1, 2] with status := .error, err := .decodeTruncated } := by decide
/-- V-RGBA-2. -/
theorem test_rgba : look 54 0 (step (chunkState ⟨5, 6, 7, 8⟩ [0xFF, 5, 6, 7, 8])) =
    some (⟨5, 6, 7, 8⟩, ⟨5, 6, 7, 8⟩, 19, 1, 0x00, 0x20) := by decide
/-- V-IDX-3: the cached pixel becomes `prev`. -/
theorem test_index : look 9 0 (step (withEntry 9 ⟨10, 20, 30, 255⟩ (chunkState ⟨7, 7, 7, 7⟩ [0x09]))) =
    some (⟨10, 20, 30, 255⟩, ⟨10, 20, 30, 255⟩, 15, 1, 0x08, 0xA3) := by decide
/-- V-IDX-4: emitting the unwritten entry 5 clears entry 0. -/
theorem test_index_clobber : look 0 0 (step (withEntry 0 ⟨1, 1, 1, 51⟩ (chunkState ⟨7, 7, 7, 7⟩ [0x05]))) =
    some (⟨0, 0, 0, 0⟩, ⟨0, 0, 0, 0⟩, 15, 1, 0, 0) := by decide
/-- V-DIFF-6: lanes wrap on their own. -/
theorem test_diff : look 32 0 (step (chunkState ⟨1, 0, 255, 9⟩ [0x4B])) =
    some (⟨255, 0, 0, 9⟩, ⟨255, 0, 0, 9⟩, 15, 1, 0xF8, 0x00) := by decide
/-- V-DIFF-7: the field order. -/
theorem test_diff_order : look 46 0 (step (chunkState ⟨0, 0, 0, 255⟩ [0x72])) =
    some (⟨1, 254, 0, 255⟩, ⟨1, 254, 0, 255⟩, 15, 1, 0x07, 0xE0) := by decide
/-- V-LUMA-4: 0xFE + 3 wraps to 0x01. -/
theorem test_luma : look 19 0 (step (chunkState ⟨254, 10, 3, 255⟩ [0xA1, 0xA0])) =
    some (⟨1, 11, 252, 255⟩, ⟨1, 11, 252, 255⟩, 16, 1, 0x00, 0x5F) := by decide
/-- V-LUMA-8: the high nibble is red, the low one blue. -/
theorem test_luma_nibbles : look 33 0 (step (chunkState ⟨200, 100, 50, 255⟩ [0x9B, 0x3C])) =
    some (⟨190, 95, 49, 255⟩, ⟨190, 95, 49, 255⟩, 16, 1, 0xBA, 0xE6) := by decide
/-- V-RUN-6: two copies displace a colliding pixel. -/
theorem test_run : look 53 2 (step (withEntry 53 ⟨0, 0, 0, 255⟩ (chunkState ⟨64, 0, 0, 255⟩ [0xC1]))) =
    some (⟨64, 0, 0, 255⟩, ⟨64, 0, 0, 255⟩, 15, 2, 0x40, 0x00) := by decide
/-- V-RUN-4: the cut to the pixels that remain, and DONE. -/
theorem test_run_cut :
    (nextState (step { chunkState ⟨255, 0, 0, 255⟩ [0xFD] with hdrWidth := 10, hdrHeight := 10, pixcnt := 95 })).map
      (fun t => (t.pixcnt, t.status, t.sp.toNat, [190, 198, 199, 200].map (fbRead t.fb))) =
    some (100, .done, 15, [0xF8, 0xF8, 0x00, 0x00]) := by decide
/-- V-HDR-11's header: 135 x 240 = FB_PIXELS passes. -/
theorem test_header : lookHeader (step (headerState [0x71, 0x6F, 0x69, 0x66, 0, 0, 0, 0x87, 0, 0, 0, 0xF0, 4, 0])) =
    some ((.decode, .none, .none), [14, 135, 240, 4, 0]) := by decide
/-- V-HDR-9: the product is exact. -/
theorem test_header_capacity :
    lookHeader (step (headerState [0x71, 0x6F, 0x69, 0x66, 0, 1, 0, 0, 0, 1, 0, 0, 4, 0, 0])) =
    some ((.error, .capacityExceeded, .none), [0, 65536, 65536, 4, 0]) := by decide
/-- V-HDR-7: a zero height leaves the header registers alone. -/
theorem test_header_zero :
    lookHeader (step (headerState [0x71, 0x6F, 0x69, 0x66, 0, 0, 0, 5, 0, 0, 0, 0, 4, 0, 0])) =
    some ((.error, .headerInvalid, .zeroDimension), [0, 0, 0, 0, 0]) := by decide
/-- V-HDR-5: bad magic before zero dimensions; V-HDR-1: the empty stream. -/
theorem test_header_order :
    lookHeader (step (headerState [0x51, 0x6F, 0x69, 0x66, 0, 0, 0, 0, 0, 0, 0, 0, 4, 0])) =
      some ((.error, .headerInvalid, .badMagic), [0, 0, 0, 0, 0]) ∧
    lookHeader (step (headerState [])) = some ((.error, .headerInvalid, .truncated), [0, 0, 0, 0, 0]) := by decide
/-- V-END-6: at DONE the end marker at `sp` is not read. -/
theorem test_end : nextState (step { chunkState ⟨1, 2, 3, 255⟩ [0, 0, 0, 0, 0, 0, 0, 1] with status := .done }) =
    some { chunkState ⟨1, 2, 3, 255⟩ [0, 0, 0, 0, 0, 0, 0, 1] with status := .done } := by decide

/-! ### Tables -/

/-- 95 section 2.1: the 8-bit hash and the entry. -/
theorem test_hash : [(⟨0, 0, 0, 255⟩ : Pixel), ⟨255, 0, 0, 255⟩, ⟨10, 20, 30, 255⟩, ⟨255, 255, 255, 255⟩, ⟨86, 0, 0, 0⟩,
      ⟨128, 128, 128, 128⟩].map (fun p => ((pixelHash p).toNat, (slot p).val)) =
    [(245, 53), (242, 50), (73, 9), (230, 38), (2, 2), (0, 0)] := by decide
/-- 95 section 2.4: the converter. -/
theorem test_rgb565 : [(⟨0, 255, 0, 1⟩ : Pixel), ⟨0, 0, 255, 2⟩, ⟨8, 4, 8, 77⟩, ⟨7, 3, 7, 0⟩, ⟨10, 20, 30, 255⟩,
      ⟨200, 100, 50, 0⟩].map rgb565 = [0x07E0, 0x001F, 0x0821, 0x0000, 0x08A3, 0xCB26] := by decide
/-- The canonical form: writing `0x00` removes the cell (log 1). -/
theorem test_fb_form : fbWriteByte (fbWriteByte [(4, 1)] 2 7) 9 3 = [(2, 7), (4, 1), (9, 3)] ∧
    fbWriteByte [(2, 7), (4, 1), (9, 3)] 4 0 = [(2, 7), (9, 3)] := by decide

/-! ### Host commands -/

/-- START after a decode: 10 R25; FB stays. -/
theorem test_start : (nextState (step (withCommand (.start [1, 2]) { chunkState ⟨1, 2, 3, 4⟩ [] with status := .done, fb := [(0, 8)] }))).map
    (fun t => (t.prev, t.status, t.hdrWidth.toNat, t.fb)) = some (⟨0, 0, 0, 255⟩, .header, 0, [(0, 8)]) := by decide
/-- RESET abandons a decode and zeroes FB (44 R115). -/
theorem test_reset : nextState (step (withCommand .reset { chunkState ⟨1, 2, 3, 4⟩ [9] with fb := [(0, 8)] })) =
    some State.reset := by decide
/-- A poll of `status` at DONE reads 3 (10 R18). -/
theorem test_poll : (nextState (step (withCommand (.readRegister .status) { State.reset with status := .done }))).map
    (fun t => (t.readout, t.status)) = some (some 3, .done) := by decide

/-! ### Every row's word, fetched and run as the first instruction after reset -/

/-- Does the next step run exactly the row's instruction? -/
def runsRow (nbits w : Nat) (i : Instr) : Bool :=
  nextState (step (State.reset.withFetchWord nbits w)) = nextState (exec i (State.reset.withFetchWord nbits w)) &&
    (nextState (step (State.reset.withFetchWord nbits w))).isSome

theorem test_row_rgb : runsRow 32 0x030201FE (.rgb 1 2 3) = true := by decide
theorem test_row_rgba : runsRow 8 0xFF (.rgba 0 0 0 0) = true := by decide
theorem test_row_index : runsRow 8 0x05 (.index 5) = true := by decide
theorem test_row_diff : runsRow 8 0x55 (.diff (-1) (-1) (-1)) = true := by decide
theorem test_row_luma : runsRow 16 0x88A0 (.luma 0 0 0) = true := by decide
theorem test_row_run : runsRow 8 0xC0 (.run 1) = true := by decide
theorem test_container_rows_run : (runsRow 112 0x0003010000000100000066696F71 (.header 1 1 3 0) &&
    runsRow 64 (2 ^ 56) .endMarker) = true := by decide
/-- A placed chunk really emits: RUN 62 counts 62 pixels. -/
theorem test_placed_run_emits : (nextState (step (State.reset.withFetchWord 8 0xFD))).map (fun t => (t.pixcnt, t.sp.toNat)) =
    some (62, 15) := by decide

/-! ### Witnesses: the hypotheses of each statement, met together -/

/-- A ready state: DecodeOfEncode and the chunk meanings, operands free. -/
theorem witness_Ready : Ready (chunkState ⟨1, 2, 3, 4⟩ []) := by unfold Ready; decide
/-- Ready with one pixel left: the boundary of `pixcnt < TOTAL`. -/
theorem witness_Ready_last :
    Ready { chunkState ⟨1, 2, 3, 4⟩ [0xC0] with hdrWidth := 32400, hdrHeight := 1, pixcnt := 32399 } := by
  unfold Ready; decide
theorem witness_DecodeOfEncode : (Instr.luma (-32) 7 (-8)).wellFormed = true := by decide
theorem witness_EncodeOfDecoded : decode .chunks [0x9B, 0x3C, 7] = .instr (.luma (-5) (-5) 4) [7] := by decide
theorem witness_ChunkLengthIsToldByTag : chunkLength 0xFF ≤ [1, 2, 3, (4 : Byte)].length + 1 ∧
    [1, 2, (3 : Byte)].length + 1 < chunkLength 0xFF := by decide
theorem witness_RunRepeatsPreviousPixel : 1 ≤ 62 ∧ Ready (chunkState ⟨1, 2, 3, 4⟩ []) := ⟨by decide, witness_Ready⟩
theorem witness_HeaderOfAdmittedImageEntersDecode : (headerState []).status = .header ∧ (135 : Word) ≠ 0 ∧ (240 : Word) ≠ 0 ∧
    (135 : Word).toNat * (240 : Word).toNat ≤ (headerState []).cfg.fbPixels := by decide
theorem witness_HeaderErrorsOfDimensions : (headerState []).status = .header ∧ (136 : Word) ≠ 0 ∧ (240 : Word) ≠ 0 ∧
    (headerState []).cfg.fbPixels < (136 : Word).toNat * (240 : Word).toNat := by decide
theorem witness_HeaderErrorsOfDimensions_zero : (headerState []).status = .header ∧ ((0 : Word) = 0 ∨ (5 : Word) = 0) := by decide
theorem witness_StepsNotEnabledChangeNothing : (Instr.run 1).region = .chunks ∧ State.reset.status ≠ .decode ∧
    (Instr.header 1 1 3 0).region = .header ∧ State.reset.status ≠ .header := by decide
theorem witness_StepRunsDecodedInstruction_chunk : (chunkState ⟨0, 0, 0, 255⟩ [0xC0, 5]).status = .decode ∧
    decodeChunk ((chunkState ⟨0, 0, 0, 255⟩ [0xC0, 5]).input.drop (chunkState ⟨0, 0, 0, 255⟩ [0xC0, 5]).sp.toNat) =
      .instr (.run 1) [5] ∧ (chunkState ⟨0, 0, 0, 255⟩ [0xC0, 5]).schedule = [] := by decide
theorem witness_StepRunsDecodedInstruction_scheduled :
    ({ chunkState ⟨0, 0, 0, 255⟩ [0xC0, 5] with schedule := [.block] }).schedule = .block :: [] := by decide
theorem witness_StepRunsDecodedInstruction_header : (headerState (encode (.header 1 1 3 0))).status = .header ∧
    decodeHeader (headerState (encode (.header 1 1 3 0))).input = .instr (.header 1 1 3 0) [] := by decide

/-- The stream states of the six chunk-step statements: tag and payload at `sp`, and the truncated ones. -/
theorem witness_RgbChunkStep : BlockMoves (chunkState ⟨0, 0, 0, 255⟩ [0xFE, 1, 2, 3]) ∧
    Ready (chunkState ⟨0, 0, 0, 255⟩ [0xFE, 1, 2, 3]) ∧
    (chunkState ⟨0, 0, 0, 255⟩ [0xFE, 1, 2, 3]).input[14]? = some 0xFE ∧
    (chunkState ⟨0, 0, 0, 255⟩ [0xFE, 1, 2, 3]).input[14 + 3]? = some 3 ∧
    (chunkState ⟨0, 0, 0, 255⟩ [0xFE, 1, 2]).input.length < 14 + 4 := by unfold BlockMoves Ready; decide
theorem witness_RgbaChunkStep : BlockMoves (chunkState ⟨0, 0, 0, 255⟩ [0xFF, 1, 2, 3, 4]) ∧
    Ready (chunkState ⟨0, 0, 0, 255⟩ [0xFF, 1, 2, 3, 4]) ∧
    (chunkState ⟨0, 0, 0, 255⟩ [0xFF, 1, 2, 3, 4]).input[14]? = some 0xFF ∧
    (chunkState ⟨0, 0, 0, 255⟩ [0xFF, 1, 2, 3, 4]).input[14 + 4]? = some 4 ∧
    (chunkState ⟨0, 0, 0, 255⟩ [0xFF, 1, 2, 3]).input.length < 14 + 5 := by unfold BlockMoves Ready; decide
theorem witness_IndexChunkStep : BlockMoves (chunkState ⟨0, 0, 0, 255⟩ [0x3F]) ∧ Ready (chunkState ⟨0, 0, 0, 255⟩ [0x3F]) ∧
    (chunkState ⟨0, 0, 0, 255⟩ [0x3F]).input[14]? = some 0x3F ∧ (0x3F : Byte).toNat = (63 : Fin 64).val ∧
    (chunkState ⟨0, 0, 0, 255⟩ []).input[14]? = none := by unfold BlockMoves Ready; decide
theorem witness_DiffChunkStep : BlockMoves (chunkState ⟨0, 0, 0, 255⟩ [0x40]) ∧ Ready (chunkState ⟨0, 0, 0, 255⟩ [0x40]) ∧
    (chunkState ⟨0, 0, 0, 255⟩ [0x40]).input[14]? = some 0x40 ∧ (chunkState ⟨0, 0, 0, 255⟩ [0x7F]).input[14]? = some 0x7F ∧
    0x40 ≤ (0x40 : Byte).toNat ∧ (0x7F : Byte).toNat ≤ 0x7F := by unfold BlockMoves Ready; decide
theorem witness_LumaChunkStep : BlockMoves (chunkState ⟨0, 0, 0, 255⟩ [0xBF, 0xFF]) ∧
    Ready (chunkState ⟨0, 0, 0, 255⟩ [0xBF, 0xFF]) ∧ (chunkState ⟨0, 0, 0, 255⟩ [0xBF, 0xFF]).input[14]? = some 0xBF ∧
    (chunkState ⟨0, 0, 0, 255⟩ [0xBF, 0xFF]).input[14 + 1]? = some 0xFF ∧
    (chunkState ⟨0, 0, 0, 255⟩ [0x80]).input[14]? = some 0x80 ∧
    (chunkState ⟨0, 0, 0, 255⟩ [0x80]).input[14 + 1]? = none := by unfold BlockMoves Ready; decide
theorem witness_RunChunkStep : BlockMoves (chunkState ⟨0, 0, 0, 255⟩ [0xFD]) ∧ Ready (chunkState ⟨0, 0, 0, 255⟩ [0xFD]) ∧
    (chunkState ⟨0, 0, 0, 255⟩ [0xFD]).input[14]? = some 0xFD ∧ 0xC0 ≤ (0xC0 : Byte).toNat ∧ (0xFD : Byte).toNat ≤ 0xFD := by
  unfold BlockMoves Ready; decide
theorem witness_HeaderStepFollowsItsPseudocode : BlockMoves (headerState []) ∧ (headerState []).status = .header := by
  unfold BlockMoves; decide
theorem witness_ChunkFetch_empty : BlockMoves (chunkState ⟨0, 0, 0, 255⟩ []) ∧ (chunkState ⟨0, 0, 0, 255⟩ []).status = .decode ∧
    (chunkState ⟨0, 0, 0, 255⟩ []).input.length ≤ (chunkState ⟨0, 0, 0, 255⟩ []).sp.toNat := by unfold BlockMoves; decide
theorem witness_ChunkFetch_short_and_whole : (chunkState ⟨0, 0, 0, 255⟩ [0x80]).input.length < 14 + chunkLength 0x80 ∧
    14 + chunkLength 0x80 ≤ (chunkState ⟨0, 0, 0, 255⟩ [0x80, 0]).input.length := by decide
theorem witness_BlockWithoutEnabledStepKeepsState : BlockMoves State.reset ∧ State.reset.busy = false := by
  unfold BlockMoves; decide

theorem chunkState_inv (prev : Pixel) (bytes : List Byte) (h : bytes.length < 2 ^ 16) : Inv (chunkState prev bytes) where
  fbWf := wf_nil
  fbInside := by simp [chunkState, State.reset]
  spInside := by simp [chunkState]
  inputBounded := by simp [chunkState]; omega
  idle := by simp [chunkState]
  header := by simp [chunkState]
  decode := fun _ =>
    ⟨⟨show (100 : Word) ≠ 0 by decide, show (100 : Word) ≠ 0 by decide,
      show (100 : Word).toNat * (100 : Word).toNat ≤ 32400 by decide, show 14 ≤ (14 : Word).toNat by decide⟩,
      show 0 < (100 : Word).toNat * (100 : Word).toNat by decide⟩
  done := by simp [chunkState]
  error := by simp [chunkState]
  noError := fun _ => ⟨rfl, rfl⟩
  sinkQuiet := by simp [chunkState, State.reset]

/-- ChunkStepRaisesOrMakesProgress, DecodeTerminates (status DECODE), BlockMoveNeverStops, InvariantKeptByEveryStep. -/
theorem witness_Inv_decode : Inv (chunkState ⟨0, 0, 0, 255⟩ [0xC0]) ∧ BlockMoves (chunkState ⟨0, 0, 0, 255⟩ [0xC0]) ∧
    (chunkState ⟨0, 0, 0, 255⟩ [0xC0]).status = .decode ∧
    (nextState (step (chunkState ⟨0, 0, 0, 255⟩ [0xC0]))).isSome = true :=
  ⟨chunkState_inv _ _ (by decide), rfl, rfl, by decide⟩
/-- DecodeTerminates, status HEADER. -/
theorem witness_Inv_header : Inv (headerState [1, 2]) ∧ BlockMoves (headerState [1, 2]) ∧ (headerState [1, 2]).status = .header where
  left :=
    { fbWf := wf_nil
      fbInside := by simp [headerState, State.reset]
      spInside := by decide
      inputBounded := by decide
      idle := by simp [headerState]
      header := fun _ => by unfold Fresh; decide
      decode := by simp [headerState]
      done := by simp [headerState]
      error := by simp [headerState]
      noError := fun _ => ⟨rfl, rfl⟩
      sinkQuiet := by simp [headerState, State.reset] }
  right := ⟨rfl, rfl⟩
theorem witness_RaisedErrorsArePrecise :
    ∃ t, BlockMoves (chunkState ⟨0, 0, 0, 255⟩ [0xA0]) ∧ (chunkState ⟨0, 0, 0, 255⟩ [0xA0]).status ≠ .error ∧
      step (chunkState ⟨0, 0, 0, 255⟩ [0xA0]) = .next t ∧ t.status = .error :=
  ⟨_, rfl, by decide, rfl, rfl⟩
theorem witness_OnlyStartOrResetLeavesAnEndedDecode : ∃ t, (withCommand (.readRegister .err) State.reset).busy = false ∧
    step (withCommand (.readRegister .err) State.reset) = .next t ∧
    (∀ ms, (withCommand (.readRegister .err) State.reset).schedule ≠ .host .reset :: ms) ∧
    (∀ input ms, (withCommand (.readRegister .err) State.reset).schedule ≠ .host (.start input) :: ms) :=
  ⟨_, by decide, rfl, by simp [withCommand], by simp [withCommand]⟩
/-- BlockWritesOnlyCountedPixels, StreamTouchesNothingOutsideTheBlock, BlockNeverReadsFramebuffer. -/
theorem witness_block_move : ∃ t, BlockMoves (chunkState ⟨255, 0, 0, 255⟩ [0xC4]) ∧
    step (chunkState ⟨255, 0, 0, 255⟩ [0xC4]) = .next t ∧ t.pixcnt = 5 := ⟨_, rfl, rfl, rfl⟩
theorem witness_FormatBytesDoNotChangeDecoding : ∃ t, IsChunk (.rgba 1 2 3 4) ∧
    exec (.rgba 1 2 3 4) (chunkState ⟨0, 0, 0, 255⟩ []) = .next t := ⟨_, rfl, rfl⟩
theorem witness_FramebufferStoreIsBigEndian : Memory.wf [(0, 8), (3, 1)] := by decide
theorem witness_FramebufferFormIsCanonical : Memory.wf [(2, 7)] ∧ Memory.wf (fbWriteByte [] 2 7) ∧
    fbWriteByte [] 2 7 = [(2, 7)] := by decide
theorem witness_ResetCommand : (withCommand .reset (chunkState ⟨1, 2, 3, 4⟩ [])).schedule = [.host .reset] := rfl
theorem witness_StartCommand : (withCommand (.start []) State.reset).schedule = [.host (.start [])] ∧
    (withCommand (.start []) State.reset).status = .idle ∧ (withCommand (.start []) State.reset).sink = none ∧
    ([] : List Byte).length < 2 ^ 32 := by decide
theorem witness_StartOutsideItsPremises_busy :
    (withCommand (.start []) (headerState [])).schedule = [.host (.start [])] ∧
    (withCommand (.start []) (headerState [])).status = .header := by decide
theorem witness_StartOutsideItsPremises_sink : (withCommand (.start []) { State.reset with status := .done, sink := some 5 }).busy = false ∧
    (withCommand (.start []) { State.reset with status := .done, sink := some 5 }).sink ≠ none := by decide
theorem witness_StartOutsideItsPremises_long : ∃ input : List Byte, (withCommand (.start input) State.reset).busy = false ∧
    (withCommand (.start input) State.reset).sink = none ∧ 2 ^ 32 ≤ input.length :=
  ⟨List.replicate (2 ^ 32) 0, rfl, rfl, by rw [List.length_replicate]⟩
theorem witness_RegisterReads : (withCommand (.readRegister .sp) (headerState [])).schedule = [.host (.readRegister .sp)] := rfl
theorem witness_FramebufferReads : (withCommand (.readFb 64799) State.reset).schedule = [.host (.readFb 64799)] ∧
    (withCommand (.readFb 64799) State.reset).busy = false ∧ 64799 < (withCommand (.readFb 64799) State.reset).cfg.fbBytes ∧
    (withCommand (.readFb 64800) State.reset).cfg.fbBytes ≤ 64800 ∧ (withCommand (.readFb 0) (headerState [])).busy = true := by
  decide
theorem witness_HandoffKeepsTheBlock : (withCommand .handoff { State.reset with status := .done }).schedule = [.host .handoff] ∧
    (withCommand .handoff { State.reset with status := .done }).status = .done ∧
    (withCommand .handoff { State.reset with status := .error, err := .decodeTruncated }).err = .decodeTruncated ∧
    ({ State.reset with schedule := [.sinkEnds] }).schedule = [.sinkEnds] := by decide
theorem witness_StartForgetsTheEarlierDecode : ∃ t₁ t₂,
    step (withCommand (.start [7]) State.reset) = .next t₁ ∧
    step (withCommand (.start [7]) { chunkState ⟨1, 2, 3, 4⟩ [] with status := .done, fb := [(0, 8)] }) = .next t₂ ∧
    (withCommand (.start [7]) State.reset).cfg =
      (withCommand (.start [7]) { chunkState ⟨1, 2, 3, 4⟩ [] with status := .done, fb := [(0, 8)] }).cfg := ⟨_, _, rfl, rfl, rfl⟩
/-- HistoryKeptByEveryStep: a nonempty history. -/
theorem witness_Emitted : Emitted [⟨8, 4, 8, 77⟩] (emitPixel ⟨8, 4, 8, 77⟩ State.reset) ∧
    (nextState (step (emitPixel ⟨8, 4, 8, 77⟩ State.reset))).isSome = true where
  left :=
    { prev := rfl
      index := by decide
      pixcnt := rfl
      fb := by
        intro n p h
        rcases n with _ | n
        · cases h
          decide
        · cases h }
  right := by decide
/-- CacheLawAndCounts: the state after one chunk of V-RGB-1. -/
theorem witness_CacheLawAndCounts : Emitted [⟨8, 4, 8, 77⟩] (emitPixel ⟨8, 4, 8, 77⟩ (chunkState ⟨0, 0, 0, 255⟩ [])) ∧
    Inv (emitPixel ⟨8, 4, 8, 77⟩ (chunkState ⟨0, 0, 0, 255⟩ [])) ∧
    1 ≤ (emitPixel ⟨8, 4, 8, 77⟩ (chunkState ⟨0, 0, 0, 255⟩ [])).pixcnt where
  left :=
    { prev := rfl
      index := by decide
      pixcnt := rfl
      fb := by
        intro n p h
        rcases n with _ | n
        · cases h
          decide
        · cases h }
  right := by
    refine ⟨?_, by decide⟩
    exact {
      fbWf := by decide
      fbInside := by decide
      spInside := by decide
      inputBounded := by decide
      idle := by simp [chunkState]
      header := by simp [chunkState]
      decode := fun _ => by unfold Admitted; decide
      done := by simp [chunkState]
      error := by simp [chunkState]
      noError := fun _ => ⟨rfl, rfl⟩
      sinkQuiet := by simp [chunkState, State.reset] }

end Sys2Proof.Tests
end

/-! ## Chunk operations: what one chunk step on the stream's bytes does (41 R84 - R88, R93)

The layers, each used by the next: the bytes of a pixel and the arithmetic of its lanes; the decoder on a tag; the effect of
a chunk step; the step of the block on its stream; the statements. -/

namespace Sys2Proof.Machine

open Sys2Proof

/-! ### Pixel arithmetic -/

/-- The byte `fbWriteHalf` stores at the even offset (42 R101). -/
theorem highByte_rgb565 (p : Pixel) : highByte (rgb565 p) = evenByte p := by
  refine BitVec.eq_of_getLsbD_eq fun i hi => ?_
  simp only [highByte, rgb565, evenByte]
  interval_cases i <;> simp

/-- The byte `fbWriteHalf` stores at the odd offset (42 R101). -/
theorem lowByte_rgb565 (p : Pixel) : lowByte (rgb565 p) = oddByte p := by
  refine BitVec.eq_of_getLsbD_eq fun i hi => ?_
  simp only [lowByte, rgb565, oddByte]
  interval_cases i <;> simp

theorem toNat_wrap8 (x : Int) : ((wrap8 x).toNat : Int) = x % 256 := by
  rw [wrap8, BitVec.toNat_ofInt]
  omega

theorem toNat_addDelta (c : Byte) (d : Int) : ((addDelta c d).toNat : Int) = ((c.toNat : Int) + d) % 256 :=
  toNat_wrap8 _

/-- The wraps of the hash do not show modulo 64, which divides 256 (41 R81). -/
theorem slot_val (p : Pixel) : (slot p).val = hashSum p % 64 := by
  have hr := toNat_wrap8 ((p.r.toNat : Int) * 3)
  have hg := toNat_wrap8 ((p.g.toNat : Int) * 5)
  have hb := toNat_wrap8 ((p.b.toNat : Int) * 7)
  have ha := toNat_wrap8 ((p.a.toNat : Int) * 11)
  have hsum := toNat_wrap8 (((hashTerm p.r 3).toNat : Int) + ((hashTerm p.g 5).toNat : Int)
    + ((hashTerm p.b 7).toNat : Int) + ((hashTerm p.a 11).toNat : Int))
  simp only [hashTerm] at hsum
  simp only [slot, Fin.val_ofNat, pixelHash, hashTerm, hashSum]
  omega

/-! ### The decoder on a tag -/

/-- A bit field of a byte as a quotient and a remainder. -/
theorem bits_eq (v : Byte) (hi lo : Nat) : bits v hi lo = v.toNat / 2 ^ lo % 2 ^ (hi - lo + 1) := by
  simp [bits, BitVec.extractLsb_toNat, Nat.shiftRight_eq_div_pow]

theorem bits_top_two (tag : Byte) : bits tag 7 6 = tag.toNat / 64 := by
  rw [bits_eq]
  have := tag.isLt
  omega

theorem tag_not_full_byte {tag : Byte} (h : tag.toNat ≤ 0xFD) : tag ≠ 0xFE ∧ tag ≠ 0xFF := by
  constructor <;> rintro rfl <;> revert h <;> decide

/-- Apart from the two full-byte tags, the top two bits choose the operation (30 R55). -/
theorem dispatch_of_top_two {tag : Byte} (h : tag.toNat ≤ 0xFD) :
    dispatch tag =
      if tag.toNat / 64 = 0 then .index else if tag.toNat / 64 = 1 then .diff
      else if tag.toNat / 64 = 2 then .luma else .run := by
  obtain ⟨hFE, hFF⟩ := tag_not_full_byte h
  rw [dispatch, if_neg hFE, if_neg hFF, bits_top_two]

theorem dispatch_index {tag : Byte} (h : tag.toNat ≤ 0x3F) : dispatch tag = .index := by
  rw [dispatch_of_top_two (by omega), if_pos (by omega)]

theorem dispatch_diff {tag : Byte} (hlo : 0x40 ≤ tag.toNat) (hhi : tag.toNat ≤ 0x7F) : dispatch tag = .diff := by
  rw [dispatch_of_top_two (by omega), if_neg (by omega), if_pos (by omega)]

theorem dispatch_luma {tag : Byte} (hlo : 0x80 ≤ tag.toNat) (hhi : tag.toNat ≤ 0xBF) : dispatch tag = .luma := by
  rw [dispatch_of_top_two (by omega), if_neg (by omega), if_neg (by omega), if_pos (by omega)]

theorem decodeChunk_rgb (r g b : Byte) (rest : List Byte) :
    decodeChunk (0xFE :: r :: g :: b :: rest) = .instr (.rgb r g b) rest := rfl

theorem decodeChunk_rgb_short {pay : List Byte} (h : pay.length < 3) :
    decodeChunk (0xFE :: pay) = .rejected .chunkTruncated := by
  match pay, h with
  | [], _ => rfl
  | [_], _ => rfl
  | [_, _], _ => rfl

theorem decodeChunk_rgba (r g b a : Byte) (rest : List Byte) :
    decodeChunk (0xFF :: r :: g :: b :: a :: rest) = .instr (.rgba r g b a) rest := rfl

theorem decodeChunk_rgba_short {pay : List Byte} (h : pay.length < 4) :
    decodeChunk (0xFF :: pay) = .rejected .chunkTruncated := by
  match pay, h with
  | [], _ => rfl
  | [_], _ => rfl
  | [_, _], _ => rfl
  | [_, _, _], _ => rfl

theorem decodeChunk_index {tag : Byte} {k : Fin 64} (h : tag.toNat = k.val) (pay : List Byte) :
    decodeChunk (tag :: pay) = .instr (.index k) pay := by
  have hk : Fin.ofNat 64 (bits tag 5 0) = k := by
    ext
    simp only [Fin.val_ofNat, bits_eq]
    omega
  simp only [decodeChunk, dispatch_index (tag := tag) (by omega), hk]

/-- The deltas of a DIFF tag as the spec's arithmetic reads them. -/
theorem decodeChunk_diff {tag : Byte} (hlo : 0x40 ≤ tag.toNat) (hhi : tag.toNat ≤ 0x7F) (pay : List Byte) :
    decodeChunk (tag :: pay) =
      .instr (.diff ((tag.toNat / 16 % 4 : Nat) - 2) ((tag.toNat / 4 % 4 : Nat) - 2) ((tag.toNat % 4 : Nat) - 2)) pay := by
  simp [decodeChunk, dispatch_diff hlo hhi, biased, bits_eq]

/-- The deltas of a LUMA tag and its payload as the spec's arithmetic reads them. -/
theorem decodeChunk_luma {tag : Byte} (hlo : 0x80 ≤ tag.toNat) (hhi : tag.toNat ≤ 0xBF) (yy : Byte) (rest : List Byte) :
    decodeChunk (tag :: yy :: rest) =
      .instr (.luma ((tag.toNat % 64 : Nat) - 32) ((yy.toNat / 16 : Nat) - 8) ((yy.toNat % 16 : Nat) - 8)) rest := by
  have hyy : yy.toNat / 16 % 16 = yy.toNat / 16 := by
    have := yy.isLt
    omega
  simp only [decodeChunk, dispatch_luma hlo hhi, biased, bits_eq]
  norm_num [hyy]

theorem decodeChunk_luma_short {tag : Byte} (hlo : 0x80 ≤ tag.toNat) (hhi : tag.toNat ≤ 0xBF) :
    decodeChunk [tag] = .rejected .chunkTruncated := by
  simp [decodeChunk, dispatch_luma hlo hhi]

/-! ### The effect of a chunk step -/

theorem emitPixels_sameHeaderAndError (n : Nat) (p : Pixel) (s : State) : SameHeaderAndError s (emitPixels n p s) := by
  rw [emitPixels_frame]
  exact ⟨rfl, rfl, rfl, rfl, rfl, rfl⟩

theorem emitPixels_sameOutside (n : Nat) (p : Pixel) (s : State) : SameOutside s (emitPixels n p s) := by
  rw [emitPixels_frame]
  exact ⟨rfl, rfl, rfl, rfl, rfl⟩

/-- At least one copy and the end of the chunk are what the chunk statements conclude. -/
theorem emitsPixels_finishChunk {n : Nat} (hn : 1 ≤ n) (p : Pixel) (len : Nat) (s : State) :
    EmitsPixels p n len s (finishChunk len (emitPixels n p s)) where
  prev := emitPixels_prev hn p s
  index k := by simp only [finishChunk_index, emitPixels_index hn, Fin.ext_iff, slot_val]
  stored j hj := by
    simp only [finishChunk_fb, emitPixels_fb, highByte_rgb565, lowByte_rgb565]
    constructor
    · rw [if_pos (by omega), if_pos (by omega)]
    · rw [if_pos (by omega), if_neg (by omega)]
  unstored a ha := by
    rw [finishChunk_fb, emitPixels_fb, if_neg (by omega)]
  pixcnt := emitPixels_pixcnt n p s
  sp := by rw [finishChunk_sp, emitPixels_sp]
  header := emitPixels_sameHeaderAndError n p s
  outside := emitPixels_sameOutside n p s

/-- A chunk of one pixel, in a state with a pixel still to come, emits it. -/
theorem chunkStep_emitsPixel {s : State} (h : Ready s) (len : Nat) (p : Pixel) :
    ∃ t, chunkStep len 1 p s = .next t ∧ EmitsPixels p 1 len s t := by
  obtain ⟨hstatus, hleft, hfits⟩ := h
  exact ⟨_, chunkStep_next.mpr (.inr ⟨hstatus, .inr (by omega), rfl⟩), emitsPixels_finishChunk le_rfl p len s⟩

/-! ### The block's step on its stream -/

theorem drop_eq_cons {α : Type} {l : List α} {n : Nat} {x : α} (h : l[n]? = some x) : l.drop n = x :: l.drop (n + 1) := by
  obtain ⟨hn, rfl⟩ := List.getElem?_eq_some_iff.mp h
  exact List.drop_eq_getElem_cons hn

theorem step_of_decode {s : State} (hm : BlockMoves s) (hs : s.status = .decode) :
    step s = runDecoded (decodeChunk (s.input.drop s.sp.toNat)) s := by
  rw [step_of_no_schedule hm, blockStep, fetch, hs]

theorem step_of_instr {s : State} {i : Instr} {rest : List Byte} (hm : BlockMoves s) (hs : s.status = .decode)
    (hd : decodeChunk (s.input.drop s.sp.toNat) = .instr i rest) : step s = exec i s := by
  rw [step_of_decode hm hs, hd, runDecoded]

theorem raisesTruncated_of_rejected {s : State} (hm : BlockMoves s) (hs : s.status = .decode)
    (hd : decodeChunk (s.input.drop s.sp.toNat) = .rejected .chunkTruncated) : RaisesTruncated s :=
  ⟨raise .decodeTruncated .none s, by rw [step_of_decode hm hs, hd, runDecoded, raiseRejection], rfl, rfl⟩

theorem raisesTruncated_of_no_byte {s : State} (hm : BlockMoves s) (hs : s.status = .decode)
    (h : s.input[s.sp.toNat]? = none) : RaisesTruncated s := by
  refine raisesTruncated_of_rejected hm hs ?_
  rw [List.drop_eq_nil_of_le (List.getElem?_eq_none_iff.mp h), decodeChunk]

/-! ### The format bytes (41 R93) -/

theorem emitPixels_withFormat (n : Nat) (p : Pixel) (c cs : Byte) (s : State) :
    emitPixels n p (withFormat c cs s) = withFormat c cs (emitPixels n p s) := by
  induction n generalizing s with
  | zero => rfl
  | succ n ih => exact ih (emitPixel p s)

theorem chunkStep_withFormat {len n : Nat} {p : Pixel} {s t : State} (c cs : Byte)
    (h : chunkStep len n p s = .next t) :
    chunkStep len n p (withFormat c cs s) = .next (withFormat c cs t) := by
  rcases chunkStep_next.mp h with ⟨hs, rfl⟩ | ⟨hs, hfits, rfl⟩
  · exact chunkStep_next.mpr (.inl ⟨hs, rfl⟩)
  · refine chunkStep_next.mpr (.inr ⟨hs, hfits, ?_⟩)
    rw [emitPixels_withFormat]
    rfl

/-! ### The statements -/

/-- Settles O18: the four bytes decode to RGB, whose meaning is a chunk step of one pixel. -/
theorem rgbChunkStep : Obligations.RgbChunkStep := by
  intro s hm hr htag
  have hdrop := drop_eq_cons htag
  refine ⟨fun hshort => raisesTruncated_of_rejected hm hr.1 ?_, fun r g b h1 h2 h3 => ?_⟩
  · rw [hdrop]
    exact decodeChunk_rgb_short (by rw [List.length_drop]; omega)
  · rw [drop_eq_cons h1, drop_eq_cons h2, drop_eq_cons h3] at hdrop
    rw [step_of_instr hm hr.1 (hdrop ▸ decodeChunk_rgb r g b _)]
    exact chunkStep_emitsPixel hr 4 _

/-- Settles O19: the five bytes decode to RGBA, whose meaning is a chunk step of one pixel. -/
theorem rgbaChunkStep : Obligations.RgbaChunkStep := by
  intro s hm hr htag
  have hdrop := drop_eq_cons htag
  refine ⟨fun hshort => raisesTruncated_of_rejected hm hr.1 ?_, fun r g b a h1 h2 h3 h4 => ?_⟩
  · rw [hdrop]
    exact decodeChunk_rgba_short (by rw [List.length_drop]; omega)
  · rw [drop_eq_cons h1, drop_eq_cons h2, drop_eq_cons h3, drop_eq_cons h4] at hdrop
    rw [step_of_instr hm hr.1 (hdrop ▸ decodeChunk_rgba r g b a _)]
    exact chunkStep_emitsPixel hr 5 _

/-- Settles O20: the tag's low six bits are the entry, read before the step. -/
theorem indexChunkStep : Obligations.IndexChunkStep := by
  intro s hm hr
  refine ⟨raisesTruncated_of_no_byte hm hr.1, fun tag k htag hk => ?_⟩
  rw [step_of_instr hm hr.1 (drop_eq_cons htag ▸ decodeChunk_index hk _)]
  exact chunkStep_emitsPixel hr 1 _

/-- Settles O21: the tag decodes to DIFF with its three biased fields, and each lane wraps on its own. -/
theorem diffChunkStep : Obligations.DiffChunkStep := by
  intro s hm hr
  refine ⟨raisesTruncated_of_no_byte hm hr.1, fun tag htag hlo hhi => ?_⟩
  rw [step_of_instr hm hr.1 (drop_eq_cons htag ▸ decodeChunk_diff hlo hhi _)]
  obtain ⟨t, ht, hemits⟩ := chunkStep_emitsPixel hr 1 (diffPixel s.prev _ _ _)
  refine ⟨t, ht, ?_⟩
  rw [hemits.prev]
  exact ⟨hemits, toNat_addDelta _ _, toNat_addDelta _ _, toNat_addDelta _ _, rfl⟩

/-- Settles O22: the two bytes decode to LUMA; red and blue add the green delta to their own before the wrap. -/
theorem lumaChunkStep : Obligations.LumaChunkStep := by
  intro s tag hm hr htag hlo hhi
  have hdrop := drop_eq_cons htag
  refine ⟨fun hnone => raisesTruncated_of_rejected hm hr.1 ?_, fun yy hyy => ?_⟩
  · rw [hdrop, List.drop_eq_nil_of_le (List.getElem?_eq_none_iff.mp hnone)]
    exact decodeChunk_luma_short hlo hhi
  · rw [drop_eq_cons hyy] at hdrop
    rw [step_of_instr hm hr.1 (hdrop ▸ decodeChunk_luma hlo hhi yy _)]
    obtain ⟨t, ht, hemits⟩ := chunkStep_emitsPixel hr 2 (lumaPixel s.prev _ _ _)
    refine ⟨t, ht, ?_⟩
    rw [hemits.prev, add_assoc, add_assoc]
    exact ⟨hemits, toNat_addDelta _ _, toNat_addDelta _ _, toNat_addDelta _ _, rfl⟩

/-- Settles O34: the pixel and the number of copies of a chunk are read from other registers, and a chunk step carries the
format bytes along. -/
theorem formatBytesDoNotChangeDecoding : Obligations.FormatBytesDoNotChangeDecoding := by
  intro i c cs s t hi h
  cases i with
  | rgb r g b => exact chunkStep_withFormat c cs h
  | rgba r g b a => exact chunkStep_withFormat c cs h
  | index k => exact chunkStep_withFormat c cs h
  | diff dr dg db => exact chunkStep_withFormat c cs h
  | luma dg drDg dbDg => exact chunkStep_withFormat c cs h
  | run n => exact chunkStep_withFormat c cs h
  | header w h c cs => cases hi
  | endMarker => cases hi

end Sys2Proof.Machine

/-! ## The converter: what RGB565 packs (42 R100) -/

namespace Sys2Proof.Machine

open Sys2Proof

/-- The layout of R100: the fields `r[7:3]`, `g[7:2]` and `b[7:3]`, the first in the top bits. -/
theorem rgb565_eq_append (p : Pixel) :
    rgb565 p = p.r.extractLsb' 3 5 ++ p.g.extractLsb' 2 6 ++ p.b.extractLsb' 3 5 := by
  refine BitVec.eq_of_getLsbD_eq fun i hi => ?_
  simp only [rgb565, BitVec.getLsbD_append]
  interval_cases i <;> simp

/-- Appending bit vectors is positional notation in base `2 ^ m`. -/
theorem toNat_append_eq_add {n m : Nat} (x : BitVec n) (y : BitVec m) :
    (x ++ y).toNat = x.toNat * 2 ^ m + y.toNat := by
  rw [BitVec.toNat_append, ← Nat.shiftLeft_add_eq_or_of_lt y.isLt, Nat.shiftLeft_eq]

/-- The kept bits of each component as a quotient, in their places. -/
theorem toNat_rgb565 (p : Pixel) :
    (rgb565 p).toNat = (p.r.toNat / 8 * 64 + p.g.toNat / 4) * 32 + p.b.toNat / 8 := by
  have hr := p.r.isLt
  have hg := p.g.isLt
  have hb := p.b.isLt
  simp only [rgb565_eq_append, toNat_append_eq_add, BitVec.extractLsb'_toNat, Nat.shiftRight_eq_div_pow]
  omega

/-- Settles O37: the three fields are the digits of the packed value, each below its base. -/
theorem rgb565PacksTopBits : Obligations.Rgb565PacksTopBits := by
  intro p
  have hg := p.g.isLt
  have hb := p.b.isLt
  have hpacked := toNat_rgb565 p
  refine ⟨rfl, ?_, ?_, ?_⟩ <;> omega

end Sys2Proof.Machine

/-! ## The encoding: decoder and encoder agree, and a chunk is as long as its tag says (30 R54 - R63, 41 R83) -/

namespace Sys2Proof

/-! ### One tag, one operation -/

/-- The six ranges of the tag byte (30 R56). -/
theorem tag_cases (tag : Byte) :
    tag = 0xFE ∨ tag = 0xFF ∨ tag.toNat ≤ 0x3F ∨ (0x40 ≤ tag.toNat ∧ tag.toNat ≤ 0x7F) ∨
      (0x80 ≤ tag.toNat ∧ tag.toNat ≤ 0xBF) ∨ (0xC0 ≤ tag.toNat ∧ tag.toNat ≤ 0xFD) := by
  bv_omega

theorem dispatch_run {tag : Byte} (hlo : 0xC0 ≤ tag.toNat) (hhi : tag.toNat ≤ 0xFD) : dispatch tag = .run := by
  rw [Machine.dispatch_of_top_two (by omega), if_neg (by omega), if_neg (by omega), if_neg (by omega)]

/-- The copies of a RUN tag as the spec's arithmetic reads them. -/
theorem decodeChunk_run {tag : Byte} (hlo : 0xC0 ≤ tag.toNat) (hhi : tag.toNat ≤ 0xFD) (pay : List Byte) :
    decodeChunk (tag :: pay) = .instr (.run (tag.toNat % 64 + 1)) pay := by
  simp [decodeChunk, dispatch_run hlo hhi, Machine.bits_eq]

theorem chunkLength_of_top_two {tag : Byte} (h : tag.toNat ≤ 0xFD) :
    chunkLength tag = if tag.toNat / 64 = 2 then 2 else 1 := by
  obtain ⟨hFE, hFF⟩ := Machine.tag_not_full_byte h
  rw [chunkLength, if_neg hFE, if_neg hFF]

theorem chunkLength_one {tag : Byte} (h : tag.toNat ≤ 0xFD) (h2 : tag.toNat / 64 ≠ 2) : chunkLength tag = 1 := by
  rw [chunkLength_of_top_two h, if_neg h2]

theorem chunkLength_luma {tag : Byte} (hlo : 0x80 ≤ tag.toNat) (hhi : tag.toNat ≤ 0xBF) : chunkLength tag = 2 := by
  rw [chunkLength_of_top_two (by omega), if_pos (by omega)]

theorem one_le_chunkLength (tag : Byte) : 1 ≤ chunkLength tag := by
  unfold chunkLength
  split_ifs <;> decide

/-- An instruction is encoded in as many bytes as its row has. -/
theorem length_encode (i : Instr) : (encode i).length = i.byteLength := by
  cases i <;> rfl

/-! ### What the decoder reads from a tag and the bytes after it -/

/-- The bytes `tag :: pay` begin with the encoding of the well-formed chunk `i`, as long as the tag says, and `rest` is left. -/
structure ReadsChunk (tag : Byte) (pay : List Byte) (i : Instr) (rest : List Byte) : Prop where
  isChunk : IsChunk i
  wellFormed : i.wellFormed = true
  byteLength : i.byteLength = chunkLength tag
  encode_append : encode i ++ rest = tag :: pay
  decodes : decodeChunk (tag :: pay) = .instr i rest

/-- The bytes left are those after the length the tag tells. -/
theorem ReadsChunk.rest_eq {tag : Byte} {pay : List Byte} {i : Instr} {rest : List Byte}
    (h : ReadsChunk tag pay i rest) : rest = pay.drop (chunkLength tag - 1) := by
  obtain ⟨n, hn⟩ : ∃ n, chunkLength tag = n + 1 := ⟨_, (Nat.succ_pred_eq_of_pos (one_le_chunkLength tag)).symm⟩
  have hlen : (encode i).length = n + 1 := by rw [length_encode, h.byteLength, hn]
  have hdrop := congrArg (List.drop (n + 1)) h.encode_append
  rw [List.drop_left' hlen, List.drop_succ_cons] at hdrop
  rw [hdrop, hn, Nat.add_sub_cancel]

theorem readsChunk_rgb (r g b : Byte) (rest : List Byte) :
    ReadsChunk 0xFE (r :: g :: b :: rest) (.rgb r g b) rest :=
  ⟨rfl, rfl, rfl, rfl, Machine.decodeChunk_rgb r g b rest⟩

theorem readsChunk_rgba (r g b a : Byte) (rest : List Byte) :
    ReadsChunk 0xFF (r :: g :: b :: a :: rest) (.rgba r g b a) rest :=
  ⟨rfl, rfl, rfl, rfl, Machine.decodeChunk_rgba r g b a rest⟩

theorem readsChunk_index {tag : Byte} (h : tag.toNat ≤ 0x3F) (pay : List Byte) :
    ReadsChunk tag pay (.index ⟨tag.toNat, by omega⟩) pay where
  isChunk := rfl
  wellFormed := rfl
  byteLength := (chunkLength_one (by omega) (by omega)).symm
  encode_append := by simp [encode]
  decodes := Machine.decodeChunk_index rfl pay

theorem readsChunk_diff {tag : Byte} (hlo : 0x40 ≤ tag.toNat) (hhi : tag.toNat ≤ 0x7F) (pay : List Byte) :
    ReadsChunk tag pay
      (.diff ((tag.toNat / 16 % 4 : Nat) - 2) ((tag.toNat / 4 % 4 : Nat) - 2) ((tag.toNat % 4 : Nat) - 2)) pay where
  isChunk := rfl
  wellFormed := decide_eq_true (by omega)
  byteLength := (chunkLength_one (by omega) (by omega)).symm
  encode_append := by
    refine congrArg (· :: pay) (BitVec.eq_of_toNat_eq ?_)
    rw [BitVec.toNat_ofInt]
    omega
  decodes := Machine.decodeChunk_diff hlo hhi pay

theorem readsChunk_luma {tag : Byte} (hlo : 0x80 ≤ tag.toNat) (hhi : tag.toNat ≤ 0xBF) (yy : Byte) (rest : List Byte) :
    ReadsChunk tag (yy :: rest)
      (.luma ((tag.toNat % 64 : Nat) - 32) ((yy.toNat / 16 : Nat) - 8) ((yy.toNat % 16 : Nat) - 8)) rest where
  isChunk := rfl
  wellFormed := by
    have := yy.isLt
    exact decide_eq_true (by omega)
  byteLength := (chunkLength_luma hlo hhi).symm
  encode_append := by
    have := yy.isLt
    refine congrArg₂ (· :: · :: rest) (BitVec.eq_of_toNat_eq ?_) (BitVec.eq_of_toNat_eq ?_) <;>
      (rw [BitVec.toNat_ofInt]; omega)
  decodes := Machine.decodeChunk_luma hlo hhi yy rest

theorem readsChunk_run {tag : Byte} (hlo : 0xC0 ≤ tag.toNat) (hhi : tag.toNat ≤ 0xFD) (pay : List Byte) :
    ReadsChunk tag pay (.run (tag.toNat % 64 + 1)) pay where
  isChunk := rfl
  wellFormed := decide_eq_true (by rw [Config.maxRun]; omega)
  byteLength := (chunkLength_one (by omega) (by omega)).symm
  encode_append := by
    refine congrArg (· :: pay) (BitVec.eq_of_toNat_eq ?_)
    rw [BitVec.toNat_ofNat]
    omega
  decodes := decodeChunk_run hlo hhi pay

/-- With the bytes its tag calls for, a chunk is read. -/
theorem readsChunk_of_whole {tag : Byte} {pay : List Byte} (h : chunkLength tag ≤ pay.length + 1) :
    ∃ i rest, ReadsChunk tag pay i rest := by
  rcases tag_cases tag with rfl | rfl | hi | ⟨hlo, hhi⟩ | ⟨hlo, hhi⟩ | ⟨hlo, hhi⟩
  · match pay, h with
    | r :: g :: b :: rest, _ => exact ⟨_, _, readsChunk_rgb r g b rest⟩
  · match pay, h with
    | r :: g :: b :: a :: rest, _ => exact ⟨_, _, readsChunk_rgba r g b a rest⟩
  · exact ⟨_, _, readsChunk_index hi pay⟩
  · exact ⟨_, _, readsChunk_diff hlo hhi pay⟩
  · rw [chunkLength_luma hlo hhi] at h
    match pay, h with
    | yy :: rest, _ => exact ⟨_, _, readsChunk_luma hlo hhi yy rest⟩
  · exact ⟨_, _, readsChunk_run hlo hhi pay⟩

/-- With fewer bytes than its tag calls for, a chunk is rejected. -/
theorem decodeChunk_of_short {tag : Byte} {pay : List Byte} (h : pay.length + 1 < chunkLength tag) :
    decodeChunk (tag :: pay) = .rejected .chunkTruncated := by
  rcases tag_cases tag with rfl | rfl | hi | ⟨hlo, hhi⟩ | ⟨hlo, hhi⟩ | ⟨hlo, hhi⟩
  · exact Machine.decodeChunk_rgb_short (Nat.lt_of_succ_lt_succ h)
  · exact Machine.decodeChunk_rgba_short (Nat.lt_of_succ_lt_succ h)
  · rw [chunkLength_one (by omega) (by omega)] at h
    omega
  · rw [chunkLength_one (by omega) (by omega)] at h
    omega
  · rw [chunkLength_luma hlo hhi] at h
    rw [List.eq_nil_of_length_eq_zero (by omega : pay.length = 0)]
    exact Machine.decodeChunk_luma_short hlo hhi
  · rw [chunkLength_one (by omega) (by omega)] at h
    omega

/-- Every chunk the decoder reads is there with all the bytes its tag calls for. -/
theorem readsChunk_of_decodeChunk {tag : Byte} {pay : List Byte} {i : Instr} {rest : List Byte}
    (h : decodeChunk (tag :: pay) = .instr i rest) : chunkLength tag ≤ pay.length + 1 ∧ ReadsChunk tag pay i rest := by
  rcases Nat.lt_or_ge (pay.length + 1) (chunkLength tag) with hshort | hwhole
  · rw [decodeChunk_of_short hshort] at h
    cases h
  · obtain ⟨j, rest', hj⟩ := readsChunk_of_whole hwhole
    cases hj.decodes.symm.trans h
    exact ⟨hwhole, hj⟩

/-! ### The header and the end marker -/

/-- The four bytes of a word are its digits in base 256, most significant first (20 R36). -/
theorem toNat_be32 (b0 b1 b2 b3 : Byte) :
    (be32 b0 b1 b2 b3).toNat =
      b0.toNat * 2 ^ 24 + b1.toNat * 2 ^ 16 + b2.toNat * 2 ^ 8 + b3.toNat := by
  simp only [be32, Machine.toNat_append_eq_add]
  ring

theorem be32_be32Bytes (w : Word) :
    be32 (w.extractLsb' 24 8) (w.extractLsb' 16 8) (w.extractLsb' 8 8) (w.extractLsb' 0 8) = w := by
  have := w.isLt
  refine BitVec.eq_of_toNat_eq ?_
  simp only [toNat_be32, BitVec.extractLsb'_toNat, Nat.shiftRight_eq_div_pow]
  omega

theorem be32Bytes_be32 (b0 b1 b2 b3 : Byte) : be32Bytes (be32 b0 b1 b2 b3) = [b0, b1, b2, b3] := by
  have := b0.isLt
  have := b1.isLt
  have := b2.isLt
  have := b3.isLt
  simp only [be32Bytes, List.cons.injEq, and_true]
  refine ⟨?_, ?_, ?_, ?_⟩ <;>
    (refine BitVec.eq_of_toNat_eq ?_
     simp only [toNat_be32, BitVec.extractLsb'_toNat, Nat.shiftRight_eq_div_pow]
     omega)

/-- The header decoder reads nothing but a header, from its own encoding. -/
theorem encode_of_decodeHeader {bytes rest : List Byte} {i : Instr} (h : decodeHeader bytes = .instr i rest) :
    i.region = .header ∧ encode i ++ rest = bytes := by
  unfold decodeHeader at h
  split at h
  · next m0 m1 m2 m3 w0 w1 w2 w3 h0 h1 h2 h3 c cs tail =>
    split at h
    · next hmagic =>
      cases h
      simp only [encode, be32Bytes_be32, ← hmagic]
      exact ⟨rfl, rfl⟩
    · cases h
  · cases h

/-- The end decoder reads nothing but the end marker, from its own encoding. -/
theorem encode_of_decodeEnd {bytes rest : List Byte} {i : Instr} (h : decodeEnd bytes = .instr i rest) :
    i.region = .endMarker ∧ encode i ++ rest = bytes := by
  unfold decodeEnd at h
  split at h
  · next hpattern =>
    cases h
    exact ⟨rfl, by rw [encode, ← hpattern, List.take_append_drop]⟩
  · cases h

/-- The chunk decoder reads nothing but a well-formed chunk, from its own encoding. -/
theorem encode_of_decodeChunk {bytes rest : List Byte} {i : Instr} (h : decodeChunk bytes = .instr i rest) :
    IsChunk i ∧ encode i ++ rest = bytes ∧ i.wellFormed = true := by
  cases bytes with
  | nil => cases h
  | cons tag pay =>
    obtain ⟨-, hread⟩ := readsChunk_of_decodeChunk h
    exact ⟨hread.isChunk, hread.encode_append, hread.wellFormed⟩

/-! ### The encoder's bytes, decoded -/

theorem decodeChunk_encode_index (k : Fin 64) (rest : List Byte) :
    decodeChunk (encode (.index k) ++ rest) = .instr (.index k) rest :=
  Machine.decodeChunk_index (by rw [BitVec.toNat_ofNat]; omega) rest

theorem decodeChunk_encode_diff {dr dg db : Int} (h : (Instr.diff dr dg db).wellFormed = true) (rest : List Byte) :
    decodeChunk (encode (.diff dr dg db) ++ rest) = .instr (.diff dr dg db) rest := by
  have hrange : -2 ≤ dr ∧ dr ≤ 1 ∧ -2 ≤ dg ∧ dg ≤ 1 ∧ -2 ≤ db ∧ db ≤ 1 := of_decide_eq_true h
  obtain ⟨tag, htag⟩ : ∃ tag, BitVec.ofInt 8 (0x40 + (dr + 2) * 16 + (dg + 2) * 4 + (db + 2)) = tag := ⟨_, rfl⟩
  have hval : (tag.toNat : Int) = 0x40 + (dr + 2) * 16 + (dg + 2) * 4 + (db + 2) := by
    rw [← htag, BitVec.toNat_ofInt]
    omega
  rw [encode, htag, List.singleton_append, Machine.decodeChunk_diff (by omega) (by omega)]
  congr <;> omega

theorem decodeChunk_encode_luma {dg drDg dbDg : Int} (h : (Instr.luma dg drDg dbDg).wellFormed = true)
    (rest : List Byte) :
    decodeChunk (encode (.luma dg drDg dbDg) ++ rest) = .instr (.luma dg drDg dbDg) rest := by
  have hrange : -32 ≤ dg ∧ dg ≤ 31 ∧ -8 ≤ drDg ∧ drDg ≤ 7 ∧ -8 ≤ dbDg ∧ dbDg ≤ 7 := of_decide_eq_true h
  obtain ⟨tag, htag⟩ : ∃ tag, BitVec.ofInt 8 (0x80 + (dg + 32)) = tag := ⟨_, rfl⟩
  obtain ⟨yy, hyy⟩ : ∃ yy, BitVec.ofInt 8 ((drDg + 8) * 16 + (dbDg + 8)) = yy := ⟨_, rfl⟩
  have htagVal : (tag.toNat : Int) = 0x80 + (dg + 32) := by
    rw [← htag, BitVec.toNat_ofInt]
    omega
  have hyyVal : (yy.toNat : Int) = (drDg + 8) * 16 + (dbDg + 8) := by
    rw [← hyy, BitVec.toNat_ofInt]
    omega
  rw [encode, htag, hyy, List.cons_append, List.singleton_append, Machine.decodeChunk_luma (by omega) (by omega)]
  congr <;> omega

theorem decodeChunk_encode_run {n : Nat} (h : (Instr.run n).wellFormed = true) (rest : List Byte) :
    decodeChunk (encode (.run n) ++ rest) = .instr (.run n) rest := by
  have hrange : 1 ≤ n ∧ n ≤ 62 := of_decide_eq_true h
  obtain ⟨tag, htag⟩ : ∃ tag, BitVec.ofNat 8 (0xC0 + (n - 1)) = tag := ⟨_, rfl⟩
  have hval : tag.toNat = 0xC0 + (n - 1) := by
    rw [← htag, BitVec.toNat_ofNat]
    omega
  rw [encode, htag, List.singleton_append, decodeChunk_run (by omega) (by omega)]
  congr
  omega

theorem decodeHeader_encode (w h : Word) (c cs : Byte) (rest : List Byte) :
    decodeHeader (encode (.header w h c cs) ++ rest) = .instr (.header w h c cs) rest :=
  calc decodeHeader (encode (.header w h c cs) ++ rest)
    _ = .instr (.header (be32 (w.extractLsb' 24 8) (w.extractLsb' 16 8) (w.extractLsb' 8 8) (w.extractLsb' 0 8))
          (be32 (h.extractLsb' 24 8) (h.extractLsb' 16 8) (h.extractLsb' 8 8) (h.extractLsb' 0 8)) c cs) rest := rfl
    _ = .instr (.header w h c cs) rest := by rw [be32_be32Bytes, be32_be32Bytes]

theorem decodeEnd_encode (rest : List Byte) : decodeEnd (encode .endMarker ++ rest) = .instr .endMarker rest := rfl

/-! ### The statements -/

/-- Settles O2: the encoder's bytes, row by row, fall in the row's tag range and their fields are the operands. -/
theorem decodeOfEncode : Obligations.DecodeOfEncode := by
  intro i rest h
  cases i with
  | rgb r g b => exact Machine.decodeChunk_rgb r g b rest
  | rgba r g b a => exact Machine.decodeChunk_rgba r g b a rest
  | index k => exact decodeChunk_encode_index k rest
  | diff dr dg db => exact decodeChunk_encode_diff h rest
  | luma dg drDg dbDg => exact decodeChunk_encode_luma h rest
  | run n => exact decodeChunk_encode_run h rest
  | header w ht c cs => exact decodeHeader_encode w ht c cs rest
  | endMarker => exact decodeEnd_encode rest

/-- Settles O3: each region's decoder reads nothing but encodings. -/
theorem encodeOfDecoded : Obligations.EncodeOfDecoded := by
  intro region bytes rest i h
  cases region with
  | header =>
    obtain ⟨hregion, hbytes⟩ := encode_of_decodeHeader h
    exact ⟨hregion, hbytes, nofun⟩
  | chunks =>
    obtain ⟨hregion, hbytes, hwf⟩ := encode_of_decodeChunk h
    exact ⟨hregion, hbytes, fun _ => hwf⟩
  | endMarker =>
    obtain ⟨hregion, hbytes⟩ := encode_of_decodeEnd h
    exact ⟨hregion, hbytes, nofun⟩

/-- Settles O5: the tag alone tells whether a chunk is read or rejected. -/
theorem chunkLengthIsToldByTag : Obligations.ChunkLengthIsToldByTag := by
  refine ⟨rfl, fun tag pay => ⟨fun hwhole => ?_, decodeChunk_of_short⟩⟩
  obtain ⟨i, rest, hread⟩ := readsChunk_of_whole hwhole
  exact ⟨i, hread.wellFormed, hread.rest_eq ▸ hread.decodes⟩

/-- Settles O1. -/
theorem workedExampleBytesDecode : Obligations.WorkedExampleBytesDecode := by
  refine ⟨?_, ?_, ?_, ?_, ?_, ?_, ?_, ?_⟩ <;> decide

/-- Settles O4, over the 256 tag bytes. -/
theorem tagRangesSelectOperations : Obligations.TagRangesSelectOperations := by
  unfold Obligations.TagRangesSelectOperations
  decide

/-- Settles O6: both bytes lie in INDEX's range. -/
theorem endMarkerWouldDecodeAsIndexChunks : Obligations.EndMarkerWouldDecodeAsIndexChunks := fun rest =>
  ⟨Machine.decodeChunk_index (by decide) rest, Machine.decodeChunk_index (by decide) rest⟩

end Sys2Proof

/-! ## The meanings and the block's step: what each answers, with its frame (40 R70 - R75, 41 R80 - R89) -/

namespace Sys2Proof.Machine

open Sys2Proof

/-! ### The meanings -/

theorem ready_left {s : State} (h : Ready s) : 1 ≤ s.total - s.pixcnt := by
  obtain ⟨-, hmore, -⟩ := h
  omega

/-- In a state with pixels still to come, a chunk of at least one and no more than those emits them and settles the status. -/
theorem chunkStep_emits {n : Nat} {s : State} (h : Ready s) (hpos : 1 ≤ n) (hleft : n ≤ s.total - s.pixcnt)
    (len : Nat) (p : Pixel) : ∃ t, chunkStep len n p s = .next t ∧ Emits p n len s t := by
  obtain ⟨hstatus, hmore, hfits⟩ := h
  refine ⟨_, chunkStep_next.mpr (.inr ⟨hstatus, .inr (by omega), rfl⟩), ?_⟩
  exact { emitsPixels_finishChunk hpos p len s with
    status := by simp only [finishChunk_status, emitPixels_pixcnt, emitPixels_total, emitPixels_status, hstatus] }

theorem chunkStep_emits_one {s : State} (h : Ready s) (len : Nat) (p : Pixel) :
    ∃ t, chunkStep len 1 p s = .next t ∧ Emits p 1 len s t :=
  chunkStep_emits h le_rfl (ready_left h) len p

theorem execRun_emits {n : Nat} {s : State} (hn : 1 ≤ n) (h : Ready s) :
    ∃ t, execRun n s = .next t ∧ Emits s.prev (min n (s.total - s.pixcnt)) 1 s t :=
  chunkStep_emits h (Nat.le_min.mpr ⟨hn, ready_left h⟩) (Nat.min_le_right _ _) 1 s.prev

/-- Settles O7. -/
theorem rgbEmitsPayloadWithInheritedAlpha : Obligations.RgbEmitsPayloadWithInheritedAlpha := fun r g b s h =>
  chunkStep_emits_one h 4 (rgbPixel s.prev r g b)

/-- Settles O8. -/
theorem rgbaEmitsPayload : Obligations.RgbaEmitsPayload := fun r g b a _ h =>
  chunkStep_emits_one h 5 (rgbaPixel r g b a)

/-- Settles O9: the entry is an argument of the chunk step, so it is read before it. -/
theorem indexEmitsCacheEntry : Obligations.IndexEmitsCacheEntry := fun k s h =>
  chunkStep_emits_one h 1 (cacheRead s.index k)

/-- Settles O10: each lane wraps on its own. -/
theorem diffAddsDeltasModulo256 : Obligations.DiffAddsDeltasModulo256 := by
  intro dr dg db s h
  obtain ⟨t, ht, hemits⟩ := chunkStep_emits_one h 1 (diffPixel s.prev dr dg db)
  refine ⟨t, ht, ?_⟩
  rw [hemits.prev]
  exact ⟨hemits, toNat_addDelta _ _, toNat_addDelta _ _, toNat_addDelta _ _, rfl⟩

/-- Settles O11: red and blue add the green delta to their own before the wrap. -/
theorem lumaAddsDeltasModulo256 : Obligations.LumaAddsDeltasModulo256 := by
  intro dg drDg dbDg s h
  obtain ⟨t, ht, hemits⟩ := chunkStep_emits_one h 2 (lumaPixel s.prev dg drDg dbDg)
  refine ⟨t, ht, ?_⟩
  rw [hemits.prev, add_assoc, add_assoc]
  exact ⟨hemits, toNat_addDelta _ _, toNat_addDelta _ _, toNat_addDelta _ _, rfl⟩

/-- Settles O12: with a pixel still to come the cut leaves at least one copy. -/
theorem runRepeatsPreviousPixel : Obligations.RunRepeatsPreviousPixel := fun _ _ hn h => execRun_emits hn h

/-- Settles O13. -/
theorem headerOfAdmittedImageEntersDecode : Obligations.HeaderOfAdmittedImageEntersDecode :=
  fun _ _ _ _ _ hs hw hh hfits => execHeader_next.mpr (.inr (.inr (.inr ⟨hs, hw, hh, hfits, rfl⟩)))

/-- Settles O14. -/
theorem headerErrorsOfDimensions : Obligations.HeaderErrorsOfDimensions := fun _ _ _ _ _ hs =>
  ⟨fun hzero => execHeader_next.mpr (.inr (.inl ⟨hs, hzero, rfl⟩)),
    fun hw hh hcap => execHeader_next.mpr (.inr (.inr (.inl ⟨hs, hw, hh, hcap, rfl⟩)))⟩

/-- Settles O15. -/
theorem endMarkerChangesNothing : Obligations.EndMarkerChangesNothing := fun _ => rfl

/-- Settles O16: the frames of the chunk step and of the header step test the status first. -/
theorem stepsNotEnabledChangeNothing : Obligations.StepsNotEnabledChangeNothing := by
  refine fun i s => ⟨fun hi hs => ?_, fun hi hs => ?_⟩
  · obtain ⟨n, p, hexec, -, -⟩ := exec_chunk hi s
    exact hexec.trans (chunkStep_next.mpr (.inl ⟨hs, rfl⟩))
  · cases i with
    | header w h c cs => exact execHeader_next.mpr (.inl ⟨hs, rfl⟩)
    | _ => cases hi

/-! ### Fetching -/

theorem fetch_of_decode {s : State} (h : s.status = .decode) :
    fetch s = some (decodeChunk (s.input.drop s.sp.toNat)) := by
  rw [fetch, h]

theorem fetch_of_header {s : State} (h : s.status = .header) : fetch s = some (decodeHeader s.input) := by
  rw [fetch, h]

theorem busy_eq_false {s : State} : s.busy = false ↔ s.status ≠ .header ∧ s.status ≠ .decode := by
  simp [State.busy]

theorem fetch_of_not_busy {s : State} (h : s.busy = false) : fetch s = none := by
  obtain ⟨hheader, hdecode⟩ := busy_eq_false.mp h
  unfold fetch
  split
  · exact absurd ‹_› hheader
  · exact absurd ‹_› hdecode
  all_goals rfl

theorem blockStep_of_fetch {s : State} {d : Decoded} (h : fetch s = some d) : blockStep s = runDecoded d s := by
  rw [blockStep, h]

theorem blockStep_of_not_busy {s : State} (h : s.busy = false) : blockStep s = .next s := by
  rw [blockStep, fetch_of_not_busy h]

/-- Settles O17: both fetches answer the instruction, and `runDecoded` runs it. -/
theorem stepRunsDecodedInstruction : Obligations.StepRunsDecodedInstruction := by
  have key {s : State} {i : Instr} {rest : List Byte} {ms : List Move} (h : fetch s = some (.instr i rest)) :
      (s.schedule = [] → step s = exec i s) ∧
      (s.schedule = .block :: ms → step s = exec i { s with schedule := ms }) :=
    ⟨fun hms => (step_of_no_schedule hms).trans (blockStep_of_fetch h),
      fun hms => (step_of_schedule hms).trans (blockStep_of_fetch (s := { s with schedule := ms }) h)⟩
  exact fun s i rest ms =>
    ⟨fun hs hd => key (by rw [fetch_of_decode hs, hd]), fun hs hd => key (by rw [fetch_of_header hs, hd])⟩

/-! ### The header step on its bytes (40 R75) -/

theorem decodeHeader_of_short {bytes : List Byte} (h : bytes.length < 14) :
    decodeHeader bytes = .rejected .headerTruncated := by
  unfold decodeHeader
  split
  · simp only [List.length_cons] at h
    omega
  · rfl

/-- Fourteen bytes or more are a header if they begin with the magic, its dimensions read big-endian (30 R50, R51). -/
theorem decodeHeader_of_long {bytes : List Byte} (h : 14 ≤ bytes.length) :
    decodeHeader bytes =
      if [bytes.getD 0 0, bytes.getD 1 0, bytes.getD 2 0, bytes.getD 3 0] = magic then
        .instr (.header (be32 (bytes.getD 4 0) (bytes.getD 5 0) (bytes.getD 6 0) (bytes.getD 7 0))
          (be32 (bytes.getD 8 0) (bytes.getD 9 0) (bytes.getD 10 0) (bytes.getD 11 0))
          (bytes.getD 12 0) (bytes.getD 13 0)) (bytes.drop 14)
      else .rejected .badMagic := by
  match bytes, h with
  | _ :: _ :: _ :: _ :: _ :: _ :: _ :: _ :: _ :: _ :: _ :: _ :: _ :: _ :: _, _ => rfl

/-- The header's meaning in status HEADER as one chain of checks, in the order of 40 R75. -/
theorem execHeader_of_header {s : State} (hs : s.status = .header) (w h : Word) (c cs : Byte) :
    execHeader w h c cs s =
      if w.toNat = 0 ∨ h.toNat = 0 then .next (raise .headerInvalid .zeroDimension s)
      else if s.cfg.fbPixels < w.toNat * h.toNat then .next (raise .capacityExceeded .none (loadHeader w h c cs s))
      else .next (enterDecode (loadHeader w h c cs s)) := by
  have hzero (x : Word) : x = 0 ↔ x.toNat = 0 := BitVec.toNat_eq
  rw [execHeader, if_pos hs]
  exact if_congr (or_congr (hzero w) (hzero h)) rfl rfl

/-- Settles O24: the decoder makes the checks of length and magic, the meaning those of the dimensions and the capacity. -/
theorem headerStepFollowsItsPseudocode : Obligations.HeaderStepFollowsItsPseudocode := by
  intro s hm hs h w ht t
  rw [step_of_no_schedule hm, blockStep_of_fetch (fetch_of_header hs)]
  rcases Nat.lt_or_ge s.input.length 14 with hshort | hlong
  · rw [decodeHeader_of_short hshort, if_pos hshort]
    rfl
  rw [decodeHeader_of_long hlong, if_neg (Nat.not_lt.mpr hlong)]
  by_cases hmagic : [h 0, h 1, h 2, h 3] = magic
  · have hbytes : ¬(h 0 ≠ 0x71 ∨ h 1 ≠ 0x6F ∨ h 2 ≠ 0x69 ∨ h 3 ≠ 0x66) := by
      simpa [magic] using hmagic
    have hw : (be32 (h 4) (h 5) (h 6) (h 7)).toNat = w := toNat_be32 _ _ _ _
    have hht : (be32 (h 8) (h 9) (h 10) (h 11)).toNat = ht := toNat_be32 _ _ _ _
    have ht' : t = loadHeader (be32 (h 4) (h 5) (h 6) (h 7)) (be32 (h 8) (h 9) (h 10) (h 11)) (h 12) (h 13) s := by
      simp only [t, ← hw, ← hht, BitVec.ofNat_toNat, BitVec.setWidth_eq]
      rfl
    rw [if_pos hmagic, if_neg hbytes, ht', ← hw, ← hht]
    exact execHeader_of_header hs _ _ _ _
  · have hbytes : h 0 ≠ 0x71 ∨ h 1 ≠ 0x6F ∨ h 2 ≠ 0x69 ∨ h 3 ≠ 0x66 := by
      by_contra hall
      exact hmagic (by simpa [magic] using hall)
    rw [if_neg hmagic, if_pos hbytes]
    rfl

/-! ### The chunk step on its bytes (41 R83, R89) -/

theorem step_of_truncated {s : State} (hm : BlockMoves s) (hs : s.status = .decode)
    (hd : decodeChunk (s.input.drop s.sp.toNat) = .rejected .chunkTruncated) :
    step s = .next (raise .decodeTruncated .none s) := by
  rw [step_of_decode hm hs, hd]
  rfl

/-- Settles O25: the bytes from `sp` are too few for the tag, or they read as a chunk. -/
theorem chunkFetchRaisesTruncationExactlyWhenShort : Obligations.ChunkFetchRaisesTruncationExactlyWhenShort := by
  refine fun s hm hs => ⟨fun hnone => step_of_truncated hm hs ?_, fun tag htag => ?_⟩
  · rw [List.drop_eq_nil_of_le hnone, decodeChunk]
  · have hdrop := drop_eq_cons htag
    have hlt := (List.getElem?_eq_some_iff.mp htag).1
    refine ⟨fun hshort => step_of_truncated hm hs ?_, fun hwhole => ?_⟩
    · rw [hdrop]
      exact decodeChunk_of_short (by rw [List.length_drop]; omega)
    · obtain ⟨i, rest, hread⟩ := readsChunk_of_whole (tag := tag) (pay := s.input.drop (s.sp.toNat + 1))
        (by rw [List.length_drop]; omega)
      have hd := hdrop ▸ hread.decodes
      exact ⟨i, rest, hread.isChunk, hread.wellFormed, hd, step_of_instr hm hs hd⟩

/-- Settles O23: the tag's low six bits are one less than the copies. -/
theorem runChunkStep : Obligations.RunChunkStep := by
  refine fun s hm hr => ⟨raisesTruncated_of_no_byte hm hr.1, fun tag htag hlo hhi => ?_⟩
  rw [step_of_instr hm hr.1 (drop_eq_cons htag ▸ decodeChunk_run hlo hhi _)]
  exact execRun_emits (Nat.le_add_left 1 _) hr

/-- Settles O26. -/
theorem blockWithoutEnabledStepKeepsState : Obligations.BlockWithoutEnabledStepKeepsState := fun _ hm hs =>
  (step_of_no_schedule hm).trans (blockStep_of_not_busy hs)

end Sys2Proof.Machine

/-! ## What a step can do: one inversion for the block, one for every agent -/

namespace Sys2Proof.Machine

open Sys2Proof

/-- Everything the block's move can do to a state (40 R75, 41 R80, R83, 60 R143). -/
inductive BlockEffect (s : State) : State → Prop
  /-- No step of the block is enabled. -/
  | idle (hbusy : s.busy = false) : BlockEffect s s
  /-- The header step raises HeaderInvalid. -/
  | headerInvalid {sub : ErrSub} (hs : s.status = .header) (hsub : sub ≠ .none) :
      BlockEffect s (raise .headerInvalid sub s)
  /-- The header step raises CapacityExceeded. -/
  | capacityExceeded {w h : Word} {c cs : Byte} (hs : s.status = .header) (hw : w ≠ 0) (hh : h ≠ 0)
      (hcap : s.cfg.fbPixels < w.toNat * h.toNat) :
      BlockEffect s (raise .capacityExceeded .none (loadHeader w h c cs s))
  /-- The header step admits the image. -/
  | enterDecode {w h : Word} {c cs : Byte} (hs : s.status = .header) (hw : w ≠ 0) (hh : h ≠ 0)
      (hcap : w.toNat * h.toNat ≤ s.cfg.fbPixels) (hlen : Config.headerBytes ≤ s.input.length) :
      BlockEffect s (enterDecode (loadHeader w h c cs s))
  /-- The chunk step raises DecodeTruncated. -/
  | truncated (hs : s.status = .decode) : BlockEffect s (raise .decodeTruncated .none s)
  /-- The chunk step emits: at least one pixel if one is still to come, and no more than those. -/
  | chunk {tag : Byte} {n : Nat} {p : Pixel} (hs : s.status = .decode) (htag : s.input[s.sp.toNat]? = some tag)
      (hwhole : s.sp.toNat + chunkLength tag ≤ s.input.length)
      (hcount : s.pixcnt < s.total → 1 ≤ n ∧ n ≤ s.total - s.pixcnt) (hfits : n = 0 ∨ s.pixcnt + n ≤ s.cfg.fbPixels) :
      BlockEffect s (finishChunk (chunkLength tag) (emitPixels n p s))

/-- The header decoder reads an instruction only where the header's bytes are there, and it is a header. -/
theorem header_of_decodeHeader {bytes rest : List Byte} {i : Instr} (h : decodeHeader bytes = .instr i rest) :
    ∃ w ht c cs, i = .header w ht c cs ∧ Config.headerBytes ≤ bytes.length := by
  obtain ⟨hregion, rfl⟩ := encode_of_decodeHeader h
  cases i with
  | header w ht c cs =>
    exact ⟨w, ht, c, cs, rfl, by rw [List.length_append, length_encode]; exact Nat.le_add_right _ _⟩
  | _ => cases hregion

/-- The header decoder rejects by a cause of HeaderInvalid. -/
theorem raiseRejection_of_decodeHeader {bytes : List Byte} {why : Rejection}
    (h : decodeHeader bytes = .rejected why) (s : State) :
    ∃ sub, sub ≠ .none ∧ raiseRejection why s = raise .headerInvalid sub s := by
  unfold decodeHeader at h
  split at h
  · split at h
    · cases h
    · cases h
      exact ⟨.badMagic, nofun, rfl⟩
  · cases h
    exact ⟨.truncated, nofun, rfl⟩

/-- The chunk decoder rejects as truncated. -/
theorem eq_chunkTruncated_of_decodeChunk {bytes : List Byte} {why : Rejection}
    (h : decodeChunk bytes = .rejected why) : why = .chunkTruncated := by
  cases bytes with
  | nil => cases h; rfl
  | cons tag pay =>
    rcases Nat.lt_or_ge (pay.length + 1) (chunkLength tag) with hshort | hwhole
    · cases (decodeChunk_of_short hshort).symm.trans h
      rfl
    · obtain ⟨i, rest, hread⟩ := readsChunk_of_whole hwhole
      cases hread.decodes.symm.trans h

theorem headerStep_effect {s t : State} (hs : s.status = .header)
    (h : runDecoded (decodeHeader s.input) s = .next t) : BlockEffect s t := by
  cases hd : decodeHeader s.input with
  | rejected why =>
    rw [hd] at h
    cases h
    obtain ⟨sub, hsub, hraise⟩ := raiseRejection_of_decodeHeader hd s
    rw [hraise]
    exact .headerInvalid hs hsub
  | instr i rest =>
    obtain ⟨w, ht, c, cs, rfl, hlen⟩ := header_of_decodeHeader hd
    rw [hd] at h
    rcases execHeader_next.mp h with ⟨hne, -⟩ | ⟨-, -, rfl⟩ | ⟨-, hw, hh, hcap, rfl⟩ | ⟨-, hw, hh, hcap, rfl⟩
    · exact absurd hs hne
    · exact .headerInvalid hs nofun
    · exact .capacityExceeded hs hw hh hcap
    · exact .enterDecode hs hw hh hcap hlen

/-- A chunk that decodes at `sp` has its tag there and is wholly inside IN. -/
theorem chunk_inside_of_decodeChunk {bytes rest : List Byte} {off : Nat} {i : Instr}
    (h : decodeChunk (bytes.drop off) = .instr i rest) :
    ∃ tag, bytes[off]? = some tag ∧ off + chunkLength tag ≤ bytes.length ∧ i.byteLength = chunkLength tag ∧
      IsChunk i ∧ i.wellFormed = true := by
  cases htag : bytes[off]? with
  | none =>
    rw [List.drop_eq_nil_of_le (List.getElem?_eq_none_iff.mp htag)] at h
    cases h
  | some tag =>
    have hlt := (List.getElem?_eq_some_iff.mp htag).1
    rw [drop_eq_cons htag] at h
    obtain ⟨hwhole, hread⟩ := readsChunk_of_decodeChunk h
    rw [List.length_drop] at hwhole
    exact ⟨tag, rfl, by omega, hread.byteLength, hread.isChunk, hread.wellFormed⟩

theorem chunkStep_effect {s t : State} (hs : s.status = .decode)
    (h : runDecoded (decodeChunk (s.input.drop s.sp.toNat)) s = .next t) : BlockEffect s t := by
  cases hd : decodeChunk (s.input.drop s.sp.toNat) with
  | rejected why =>
    rw [hd, eq_chunkTruncated_of_decodeChunk hd] at h
    cases h
    exact .truncated hs
  | instr i rest =>
    obtain ⟨tag, htag, hwhole, hlen, hchunk, hwf⟩ := chunk_inside_of_decodeChunk hd
    obtain ⟨n, p, hexec, hpos, hleft⟩ := exec_chunk hchunk s
    rw [hd, runDecoded, hexec, hlen] at h
    rcases chunkStep_next.mp h with ⟨hne, -⟩ | ⟨-, hfits, rfl⟩
    · exact absurd hs hne
    · exact .chunk hs htag hwhole (fun hmore => ⟨hpos (by omega) hwf, hleft (by omega)⟩) hfits

theorem blockStep_effect {s t : State} (h : blockStep s = .next t) : BlockEffect s t := by
  by_cases hheader : s.status = .header
  · rw [blockStep_of_fetch (fetch_of_header hheader)] at h
    exact headerStep_effect hheader h
  by_cases hdecode : s.status = .decode
  · rw [blockStep_of_fetch (fetch_of_decode hdecode)] at h
    exact chunkStep_effect hdecode h
  · have hbusy := busy_eq_false.mpr ⟨hheader, hdecode⟩
    rw [blockStep_of_not_busy hbusy] at h
    cases h
    exact .idle hbusy

/-- Everything one agent's move can do to a state (spec 44, 70 R156). -/
inductive MoveEffect (s : State) : Move → State → Prop
  | block {t : State} (h : BlockEffect s t) : MoveEffect s .block t
  | reset : MoveEffect s (.host .reset) { State.reset with cfg := s.cfg, schedule := s.schedule, readout := s.readout }
  | start {input : List Byte} (hbusy : s.busy = false) (hsink : s.sink = none) (hlen : input.length < 2 ^ 32) :
      MoveEffect s (.host (.start input)) (beginDecode input s)
  | readRegister (r : HostReg) : MoveEffect s (.host (.readRegister r)) (handToHost (registerValue r s) s)
  | readFb {off : Nat} (hbusy : s.busy = false) (hoff : off < s.cfg.fbBytes) :
      MoveEffect s (.host (.readFb off)) (handToHost (fbRead s.fb off).toNat s)
  | handoff (hready : handoffReady s = true) : MoveEffect s (.host .handoff) { s with sink := some s.hdrWidth }
  | sinkEnds : MoveEffect s .sinkEnds { s with sink := none }

theorem hostStart_next {input : List Byte} {s t : State} (h : hostStart input s = .next t) :
    s.busy = false ∧ s.sink = none ∧ input.length < 2 ^ 32 ∧ t = beginDecode input s := by
  unfold hostStart at h
  split_ifs at h with hbusy hsink hlen
  cases h
  exact ⟨Bool.eq_false_of_not_eq_true hbusy, Option.not_isSome_iff_eq_none.mp hsink, Nat.lt_of_not_le hlen, rfl⟩

theorem hostReadFb_next {off : Nat} {s t : State} (h : hostReadFb off s = .next t) :
    s.busy = false ∧ off < s.cfg.fbBytes ∧ t = handToHost (fbRead s.fb off).toNat s := by
  unfold hostReadFb at h
  split_ifs at h with hbusy hoff
  cases h
  exact ⟨Bool.eq_false_of_not_eq_true hbusy, hoff, rfl⟩

theorem hostHandoff_next {s t : State} (h : hostHandoff s = .next t) :
    handoffReady s = true ∧ t = { s with sink := some s.hdrWidth } := by
  unfold hostHandoff at h
  split_ifs at h with hready
  cases h
  exact ⟨hready, rfl⟩

theorem hostMove_effect {c : HostCommand} {s t : State} (h : hostMove c s = .next t) : MoveEffect s (.host c) t := by
  cases c with
  | reset => cases h; exact .reset
  | start input =>
    obtain ⟨hbusy, hsink, hlen, rfl⟩ := hostStart_next h
    exact .start hbusy hsink hlen
  | readRegister r => cases h; exact .readRegister r
  | readFb off =>
    obtain ⟨hbusy, hoff, rfl⟩ := hostReadFb_next h
    exact .readFb hbusy hoff
  | handoff =>
    obtain ⟨hready, rfl⟩ := hostHandoff_next h
    exact .handoff hready

theorem runMove_effect {m : Move} {s t : State} (h : runMove m s = .next t) : MoveEffect s m t := by
  cases m with
  | block => exact .block (blockStep_effect h)
  | host c => exact hostMove_effect h
  | sinkEnds => cases h; exact .sinkEnds

/-- Every step is one agent's move: the block's when none is scheduled, else the first scheduled one, taken off the list. -/
theorem step_effect {s t : State} (h : step s = .next t) :
    (s.schedule = [] ∧ BlockEffect s t) ∨
    ∃ m ms, s.schedule = m :: ms ∧ MoveEffect { s with schedule := ms } m t := by
  cases hms : s.schedule with
  | nil => exact .inl ⟨rfl, blockStep_effect ((step_of_no_schedule hms).symm.trans h)⟩
  | cons m ms => exact .inr ⟨m, ms, rfl, runMove_effect ((step_of_schedule hms).symm.trans h)⟩

theorem step_block_effect {s t : State} (hm : BlockMoves s) (h : step s = .next t) : BlockEffect s t :=
  blockStep_effect ((step_of_no_schedule hm).symm.trans h)

/-! ## What every block move keeps and where it stores (20 R33, R46, 44 R122, 60 R137) -/

theorem emitPixels_fb_counted {n : Nat} {p : Pixel} {s : State} {a : Nat} (hlo : 2 * s.pixcnt ≤ a)
    (hhi : a < 2 * (s.pixcnt + n)) :
    fbRead (emitPixels n p s).fb a = if a % 2 = 0 then highByte (rgb565 p) else lowByte (rgb565 p) := by
  rw [emitPixels_fb, if_pos ⟨hlo, hhi⟩]

theorem emitPixels_fb_uncounted {n : Nat} {p : Pixel} {s : State} {a : Nat}
    (ha : a < 2 * s.pixcnt ∨ 2 * (s.pixcnt + n) ≤ a) : fbRead (emitPixels n p s).fb a = fbRead s.fb a := by
  rw [emitPixels_fb, if_neg (by omega)]

theorem BlockEffect.sameOutside {s t : State} (h : BlockEffect s t) : SameOutside s t := by
  cases h with
  | chunk => exact emitPixels_sameOutside _ _ s
  | _ => exact ⟨rfl, rfl, rfl, rfl, rfl⟩

theorem BlockEffect.pixcnt_le {s t : State} (h : BlockEffect s t) : s.pixcnt ≤ t.pixcnt := by
  cases h with
  | chunk => rw [finishChunk_pixcnt, emitPixels_pixcnt]; exact Nat.le_add_right _ _
  | _ => exact le_rfl

theorem BlockEffect.fb_unstored {s t : State} (h : BlockEffect s t) {a : Nat}
    (ha : a < 2 * s.pixcnt ∨ 2 * t.pixcnt ≤ a) : fbRead t.fb a = fbRead s.fb a := by
  cases h with
  | chunk =>
    rw [finishChunk_pixcnt, emitPixels_pixcnt] at ha
    exact emitPixels_fb_uncounted ha
  | _ => rfl

/-- Settles O32. -/
theorem blockWritesOnlyCountedPixels : Obligations.BlockWritesOnlyCountedPixels := fun _ _ hm h =>
  have heffect := step_block_effect hm h
  ⟨heffect.pixcnt_le, fun _ => heffect.fb_unstored⟩

/-- Settles O33. -/
theorem streamTouchesNothingOutsideTheBlock : Obligations.StreamTouchesNothingOutsideTheBlock := fun _ _ hm h =>
  (step_block_effect hm h).sameOutside

/-- A block move leaves the schedule empty. -/
theorem BlockEffect.blockMoves {s t : State} (h : BlockEffect s t) (hm : BlockMoves s) : BlockMoves t := by
  obtain ⟨-, -, -, hschedule, -⟩ := h.sameOutside
  exact hschedule.trans hm

/-- Settles O30: the raising effects are named, and an ERROR state is not BUSY. -/
theorem raisedErrorsArePrecise : Obligations.RaisedErrorsArePrecise := by
  intro s t hm hne h hs
  have heffect := step_block_effect hm h
  refine ⟨?_, ?_⟩
  · cases heffect with
    | idle => exact absurd hs hne
    | headerInvalid _ hsub => exact .inl ⟨rfl, hsub, rfl⟩
    | capacityExceeded => exact .inr (.inr ⟨rfl, rfl⟩)
    | enterDecode => cases hs
    | truncated => exact .inr (.inl ⟨rfl, rfl⟩)
    | chunk hdecode =>
      rw [finishChunk_status, emitPixels_status, hdecode] at hs
      split at hs <;> cases hs
  · rw [step_of_no_schedule (heffect.blockMoves hm)]
    exact blockStep_of_not_busy (busy_eq_false.mpr (by simp [hs]))

/-- Settles O31: of the effects in a state that is not BUSY, START and RESET are the ones that touch the block. -/
theorem onlyStartOrResetLeavesAnEndedDecode : Obligations.OnlyStartOrResetLeavesAnEndedDecode := by
  have hidle {s t : State} (hbusy : s.busy = false) (h : BlockEffect s t) : t = s := by
    obtain ⟨hheader, hdecode⟩ := busy_eq_false.mp hbusy
    cases h with
    | idle => rfl
    | headerInvalid hs | capacityExceeded hs | enterDecode hs => exact absurd hs hheader
    | truncated hs | chunk hs => exact absurd hs hdecode
  intro s t hbusy h hreset hstart
  rcases step_effect h with ⟨-, hblock⟩ | ⟨m, ms, hms, hmove⟩
  · rw [hidle hbusy hblock]
  · cases hmove with
    | block hblock => rw [hidle (s := { s with schedule := ms }) hbusy hblock]
    | reset => exact absurd hms (hreset ms)
    | start => exact absurd hms (hstart _ ms)
    | readRegister | readFb | handoff | sinkEnds => rfl

/-! ### The block never reads FB (20 R33) -/

/-- From other framebuffer content `m` a move from `s` to `t` leaves `m'`: the bytes of the pixels counted as in `t`, every other
byte of `m` as before. -/
def StoresCounted (s t : State) (m m' : Memory) : Prop :=
  (∀ a, 2 * s.pixcnt ≤ a → a < 2 * t.pixcnt → fbRead m' a = fbRead t.fb a) ∧
  (∀ a, a < 2 * s.pixcnt ∨ 2 * t.pixcnt ≤ a → fbRead m' a = fbRead m a)

theorem storesCounted_of_pixcnt_eq {s t : State} (h : t.pixcnt = s.pixcnt) (m : Memory) : StoresCounted s t m m :=
  ⟨fun a hlo hhi => by omega, fun _ _ => rfl⟩

theorem emitPixels_withFb (n : Nat) (p : Pixel) (m : Memory) (s : State) :
    emitPixels n p (withFb m s) = withFb (emitPixels n p (withFb m s)).fb (emitPixels n p s) := by
  induction n generalizing s m with
  | zero => rfl
  | succ n ih => exact ih (emitPixel p (withFb m s)).fb (emitPixel p s)

theorem chunkStep_withFb {len n : Nat} {p : Pixel} {s t : State} (m : Memory) (h : chunkStep len n p s = .next t) :
    ∃ m', chunkStep len n p (withFb m s) = .next (withFb m' t) ∧ StoresCounted s t m m' := by
  rcases chunkStep_next.mp h with ⟨hs, rfl⟩ | ⟨hs, hfits, rfl⟩
  · exact ⟨m, chunkStep_next.mpr (.inl ⟨hs, rfl⟩), storesCounted_of_pixcnt_eq rfl m⟩
  · refine ⟨(emitPixels n p (withFb m s)).fb, chunkStep_next.mpr (.inr ⟨hs, hfits, ?_⟩), fun a hlo hhi => ?_, fun a ha => ?_⟩
    · rw [emitPixels_withFb]
      rfl
    · rw [finishChunk_pixcnt, emitPixels_pixcnt] at hhi
      exact (emitPixels_fb_counted (s := withFb m s) hlo hhi).trans (emitPixels_fb_counted hlo hhi).symm
    · rw [finishChunk_pixcnt, emitPixels_pixcnt] at ha
      exact emitPixels_fb_uncounted (s := withFb m s) ha

theorem execHeader_withFb {w h : Word} {c cs : Byte} {s t : State} (m : Memory)
    (hexec : execHeader w h c cs s = .next t) :
    execHeader w h c cs (withFb m s) = .next (withFb m t) ∧ t.pixcnt = s.pixcnt := by
  rcases execHeader_next.mp hexec with ⟨hs, rfl⟩ | ⟨hs, hz, rfl⟩ | ⟨hs, hw, hh, hc, rfl⟩ | ⟨hs, hw, hh, hc, rfl⟩
  · exact ⟨execHeader_next.mpr (.inl ⟨hs, rfl⟩), rfl⟩
  · exact ⟨execHeader_next.mpr (.inr (.inl ⟨hs, hz, rfl⟩)), rfl⟩
  · exact ⟨execHeader_next.mpr (.inr (.inr (.inl ⟨hs, hw, hh, hc, rfl⟩))), rfl⟩
  · exact ⟨execHeader_next.mpr (.inr (.inr (.inr ⟨hs, hw, hh, hc, rfl⟩))), rfl⟩

theorem exec_withFb {i : Instr} {s t : State} (m : Memory) (h : exec i s = .next t) :
    ∃ m', exec i (withFb m s) = .next (withFb m' t) ∧ StoresCounted s t m m' := by
  cases i with
  | rgb r g b => exact chunkStep_withFb m h
  | rgba r g b a => exact chunkStep_withFb m h
  | index k => exact chunkStep_withFb m h
  | diff dr dg db => exact chunkStep_withFb m h
  | luma dg drDg dbDg => exact chunkStep_withFb m h
  | run n => exact chunkStep_withFb m h
  | header w ht c cs =>
    obtain ⟨hexec, hpixcnt⟩ := execHeader_withFb m h
    exact ⟨m, hexec, storesCounted_of_pixcnt_eq hpixcnt m⟩
  | endMarker =>
    cases h
    exact ⟨m, rfl, storesCounted_of_pixcnt_eq rfl m⟩

theorem raiseRejection_withFb (why : Rejection) (m : Memory) (s : State) :
    raiseRejection why (withFb m s) = withFb m (raiseRejection why s) := by
  cases why <;> rfl

theorem raiseRejection_pixcnt (why : Rejection) (s : State) : (raiseRejection why s).pixcnt = s.pixcnt := by
  cases why <;> rfl

/-- Settles O35: the fetch, the errors and the meanings do not look at FB. -/
theorem blockNeverReadsFramebuffer : Obligations.BlockNeverReadsFramebuffer := by
  intro s t m hm h
  have hfetch : fetch (withFb m s) = fetch s := rfl
  rw [step_of_no_schedule hm] at h
  rw [step_of_no_schedule (s := withFb m s) hm]
  rcases blockStep_cases s with ⟨hnone, hnext⟩ | ⟨why, hrejected, hraise⟩ | ⟨i, rest, hinstr, hexec⟩
  · cases hnext.symm.trans h
    exact ⟨m, by rw [blockStep, hfetch, hnone], storesCounted_of_pixcnt_eq rfl m⟩
  · cases hraise.symm.trans h
    refine ⟨m, ?_, storesCounted_of_pixcnt_eq (raiseRejection_pixcnt why s) m⟩
    rw [blockStep_of_fetch (hfetch.trans hrejected), runDecoded, raiseRejection_withFb]
  · rw [blockStep_of_fetch (hfetch.trans hinstr)]
    exact exec_withFb m (hexec.symm.trans h)

end Sys2Proof.Machine

/-! ## The hash, the stored bytes and the framebuffer space (41 R81, 42 R101, 20 R35) -/

namespace Sys2Proof.Machine

open Sys2Proof

theorem toNat_hashTerm (c : Byte) (k : Int) : ((hashTerm c k).toNat : Int) = (c.toNat : Int) * k % 256 := toNat_wrap8 _

/-- Each product wraps, and the sum of the four wraps (41 R81). -/
theorem toNat_pixelHash (p : Pixel) :
    (pixelHash p).toNat =
      (p.r.toNat * 3 % 256 + p.g.toNat * 5 % 256 + p.b.toNat * 7 % 256 + p.a.toNat * 11 % 256) % 256 := by
  have hsum : ((pixelHash p).toNat : Int) = _ := toNat_wrap8 _
  rw [toNat_hashTerm, toNat_hashTerm, toNat_hashTerm, toNat_hashTerm] at hsum
  omega

/-- Settles O36. -/
theorem hashSelectsIntegerSumMod64 : Obligations.HashSelectsIntegerSumMod64 := fun p =>
  ⟨toNat_pixelHash p, rfl, slot_val p⟩

/-- Settles O38. -/
theorem rgb565Bytes : Obligations.Rgb565Bytes := fun p => ⟨highByte_rgb565 p, lowByte_rgb565 p⟩

theorem toNat_highByte (v : Half) : (highByte v).toNat = v.toNat / 256 := by
  have := v.isLt
  rw [highByte, BitVec.extractLsb'_toNat, Nat.shiftRight_eq_div_pow]
  omega

theorem toNat_lowByte (v : Half) : (lowByte v).toNat = v.toNat % 256 := by
  rw [lowByte, BitVec.extractLsb'_toNat, Nat.shiftRight_zero]

/-- Settles O39. -/
theorem framebufferStoreIsBigEndian : Obligations.FramebufferStoreIsBigEndian := by
  intro m off v hwf
  refine ⟨fbWriteHalf_wf off v hwf, ?_, ?_, fun a hoff hoff1 => ?_⟩
  · rw [fbRead_fbWriteHalf, if_neg (Nat.ne_of_lt (Nat.lt_succ_self off)), if_pos rfl, toNat_highByte]
  · rw [fbRead_fbWriteHalf, if_pos rfl, toNat_lowByte]
  · rw [fbRead_fbWriteHalf, if_neg hoff1, if_neg hoff]

theorem fbRead_of_forall_lt {m : Memory} {a : Nat} (h : ∀ c ∈ m, a < c.1) : fbRead m a = fbDefault := by
  induction m with
  | nil => rfl
  | cons c rest ih =>
    obtain ⟨b, v⟩ := c
    obtain ⟨hb, hrest⟩ := List.forall_mem_cons.mp h
    rw [fbRead, if_neg (Nat.ne_of_lt hb), ih hrest]

theorem fbRead_cons_self (b : Nat) (v : Byte) (rest : Memory) : fbRead ((b, v) :: rest) b = v := if_pos rfl

/-- Below its first cell a canonical memory reads as unwritten. -/
theorem fbRead_cons_of_lt {b a : Nat} {v : Byte} {rest : Memory} (h : Memory.wf ((b, v) :: rest)) (hab : a < b) :
    fbRead ((b, v) :: rest) a = fbDefault := by
  obtain ⟨hfirst, -, -⟩ := wf_cons.mp h
  exact fbRead_of_forall_lt (List.forall_mem_cons.mpr ⟨hab, fun c hc => Nat.lt_trans hab (hfirst c hc)⟩)

/-- The first cell of a canonical memory holds a byte that no unwritten offset reads as, so a memory with the same bytes has no
cell before it. -/
theorem head_le_of_fbRead_eq {b b' : Nat} {v v' : Byte} {rest rest' : Memory} (h : Memory.wf ((b, v) :: rest))
    (h' : Memory.wf ((b', v') :: rest')) (heq : ∀ a, fbRead ((b, v) :: rest) a = fbRead ((b', v') :: rest') a) :
    b' ≤ b := by
  obtain ⟨-, hv, -⟩ := wf_cons.mp h
  by_contra hlt
  have hread := heq b
  rw [fbRead_cons_self, fbRead_cons_of_lt h' (Nat.lt_of_not_le hlt)] at hread
  exact hv hread

theorem fbRead_tail_eq {b : Nat} {v : Byte} {rest rest' : Memory} (h : Memory.wf ((b, v) :: rest))
    (h' : Memory.wf ((b, v) :: rest')) (heq : ∀ a, fbRead ((b, v) :: rest) a = fbRead ((b, v) :: rest') a) (a : Nat) :
    fbRead rest a = fbRead rest' a := by
  obtain ⟨hfirst, -, -⟩ := wf_cons.mp h
  obtain ⟨hfirst', -, -⟩ := wf_cons.mp h'
  by_cases hab : a = b
  · rw [hab, fbRead_of_forall_lt hfirst, fbRead_of_forall_lt hfirst']
  · simpa only [fbRead, if_neg hab] using heq a

/-- A canonical memory with a cell has a byte that is not as unwritten. -/
theorem exists_fbRead_ne_default {b : Nat} {v : Byte} {rest : Memory} (h : Memory.wf ((b, v) :: rest)) :
    ∃ a, fbRead ((b, v) :: rest) a ≠ fbDefault := by
  obtain ⟨-, hv, -⟩ := wf_cons.mp h
  exact ⟨b, by rwa [fbRead_cons_self]⟩

/-- Settles O40: by induction, the first cells agree and so do the rests' bytes. -/
theorem framebufferFormIsCanonical : Obligations.FramebufferFormIsCanonical := by
  intro m
  induction m with
  | nil =>
    intro m' _ hwf' heq
    cases m' with
    | nil => rfl
    | cons c' rest' =>
      obtain ⟨a, ha⟩ := exists_fbRead_ne_default hwf'
      exact absurd (heq a).symm ha
  | cons c rest ih =>
    intro m' hwf hwf' heq
    obtain ⟨b, v⟩ := c
    cases m' with
    | nil =>
      obtain ⟨a, ha⟩ := exists_fbRead_ne_default hwf
      exact absurd (heq a) ha
    | cons c' rest' =>
      obtain ⟨b', v'⟩ := c'
      obtain rfl : b = b' :=
        Nat.le_antisymm (head_le_of_fbRead_eq hwf' hwf fun a => (heq a).symm) (head_le_of_fbRead_eq hwf hwf' heq)
      obtain rfl : v = v' := by simpa only [fbRead_cons_self] using heq b
      obtain ⟨-, -, hrest⟩ := wf_cons.mp hwf
      obtain ⟨-, -, hrest'⟩ := wf_cons.mp hwf'
      rw [ih rest' hrest hrest' (fbRead_tail_eq hwf hwf' heq)]

end Sys2Proof.Machine

/-! ## Reset and the host's commands (10 R24, R25, spec 44) -/

namespace Sys2Proof.Machine

open Sys2Proof

/-- Settles O41: the framebuffer has no cell, so every byte reads as unwritten. -/
theorem resetValues : Obligations.ResetValues :=
  ⟨rfl, cacheRead_initialIndex, rfl, rfl, rfl, rfl, rfl, rfl, rfl, rfl, rfl, fun _ _ => rfl, rfl⟩

theorem fresh_reset : Fresh State.reset := ⟨rfl, rfl, rfl, rfl, rfl, rfl, rfl, rfl⟩

theorem fresh_beginDecode (input : List Byte) (s : State) : Fresh (beginDecode input s) :=
  ⟨rfl, rfl, rfl, rfl, rfl, rfl, rfl, rfl⟩

/-- Settles O42. -/
theorem resetCommand : Obligations.ResetCommand := fun _ _ hms =>
  ⟨_, step_of_schedule hms, fresh_reset, rfl, rfl, rfl, fun _ => rfl, rfl, rfl⟩

/-- START's three premises in the order they are tested (44 R116, R117, R125). -/
theorem hostStart_of_busy {input : List Byte} {s : State} (hbusy : s.busy = true) :
    hostStart input s = .refused .startWhileBusy := if_pos hbusy

theorem hostStart_of_sink {input : List Byte} {s : State} (hbusy : s.busy = false) (hsink : s.sink ≠ none) :
    hostStart input s = .refused .startWhileSinkInFlight := by
  rw [hostStart, if_neg (by simp [hbusy]), if_pos (Option.isSome_iff_ne_none.mpr hsink)]

theorem hostStart_of_quiet {input : List Byte} {s : State} (hbusy : s.busy = false) (hsink : s.sink = none) :
    hostStart input s = if 2 ^ 32 ≤ input.length then .refused .inputTooLong else .next (beginDecode input s) := by
  rw [hostStart, if_neg (by simp [hbusy]), if_neg (by simp [hsink])]

/-- Settles O43. -/
theorem startCommand : Obligations.StartCommand := by
  intro s input ms hms hstatus hsink hlen
  have hbusy : s.busy = false := busy_eq_false.mpr (by rcases hstatus with h | h | h <;> simp [h])
  have hstart : step s = .next (beginDecode input { s with schedule := ms }) := by
    rw [step_of_schedule hms]
    exact (hostStart_of_quiet (s := { s with schedule := ms }) hbusy hsink).trans (if_neg (Nat.not_le.mpr hlen))
  exact ⟨_, hstart, fresh_beginDecode _ _, rfl, rfl, rfl, rfl, rfl, rfl, rfl⟩

/-- Settles O44. -/
theorem startOutsideItsPremisesIsRefused : Obligations.StartOutsideItsPremisesIsRefused := by
  intro s input ms hms
  rw [step_of_schedule hms]
  refine ⟨fun hstatus => hostStart_of_busy ?_, fun hbusy hsink => hostStart_of_sink hbusy hsink,
    fun hbusy hsink hlen => (hostStart_of_quiet (s := { s with schedule := ms }) hbusy hsink).trans (if_pos hlen)⟩
  rcases hstatus with h | h <;> simp [State.busy, h]

/-- Settles O45: the codes are read off value by value. -/
theorem registerReadsHaveNoSideEffect : Obligations.RegisterReadsHaveNoSideEffect := by
  refine ⟨fun s r ms hms => ?_, fun s => ⟨rfl, rfl, rfl, rfl, rfl, rfl⟩, fun s => ?_, fun s => ?_, fun s => ?_⟩
  · rw [step_of_schedule hms]
    cases r <;> rfl
  · rw [registerValue]
    cases s.status <;> rfl
  · rw [registerValue]
    cases s.err <;> rfl
  · rw [registerValue]
    cases s.errSub <;> rfl

/-- Settles O46. -/
theorem framebufferReads : Obligations.FramebufferReads := by
  intro s off ms hms
  have hread : step s = hostReadFb off { s with schedule := ms } := step_of_schedule hms
  have hquiet (hbusy : s.busy = false) : step s =
      if off < s.cfg.fbBytes then .next { s with schedule := ms, readout := some (fbRead s.fb off).toNat }
      else .fault .fbReadOutOfRange := by
    rw [hread, hostReadFb]
    exact if_neg (Bool.eq_false_iff.mp hbusy)
  exact ⟨fun hbusy => hread.trans (if_pos hbusy), fun hbusy hoff => (hquiet hbusy).trans (if_pos hoff),
    fun hbusy hoff => (hquiet hbusy).trans (if_neg (Nat.not_lt.mpr hoff))⟩

theorem handoffReady_iff {s : State} :
    handoffReady s = true ↔ s.status = .done ∨ (s.status = .error ∧ s.err = .decodeTruncated) := by
  simp [handoffReady]

/-- Settles O47. -/
theorem handoffKeepsTheBlock : Obligations.HandoffKeepsTheBlock := fun s ms =>
  ⟨fun hms hready => (step_of_schedule hms).trans (if_pos (handoffReady_iff (s := { s with schedule := ms }).mpr hready)),
    fun hms => step_of_schedule hms⟩

/-- What a START that is not refused answers. -/
theorem step_start_next {s t : State} {input : List Byte} {ms : List Move}
    (hms : s.schedule = .host (.start input) :: ms) (h : step s = .next t) :
    s.sink = none ∧ t = beginDecode input { s with schedule := ms } := by
  obtain ⟨-, hsink, -, rfl⟩ := hostStart_next ((step_of_schedule hms).symm.trans h)
  exact ⟨hsink, rfl⟩

/-- Settles O48: a START gives every field a value of its own, but for FB, the build-time parameters and the host's reading; a
transfer in flight would have refused it. -/
theorem startForgetsTheEarlierDecode : Obligations.StartForgetsTheEarlierDecode := by
  intro s₁ s₂ t₁ t₂ input ms hms₁ hms₂ hcfg hreadout h₁ h₂
  obtain ⟨hsink₁, rfl⟩ := step_start_next hms₁ h₁
  obtain ⟨hsink₂, rfl⟩ := step_start_next hms₂ h₂
  simp only [beginDecode, withFb, hcfg, hreadout, hsink₁, hsink₂]

end Sys2Proof.Machine

/-! ## The invariant between any two steps (10 R14 - R19, R26, 20 R33, 60 R131) -/

namespace Sys2Proof.Machine

open Sys2Proof

/-! ### What the invariant says in each status -/

theorem inv_ready {s : State} (h : Inv s) (hs : s.status = .decode) : Ready s := by
  obtain ⟨⟨-, -, hfits, -⟩, hmore⟩ := h.decode hs
  exact ⟨hs, hmore, hfits⟩

theorem not_handoffReady_of_busy {s : State} (h : s.status = .header ∨ s.status = .decode) : handoffReady s = false := by
  rcases h with h | h <;> simp [handoffReady, h]

/-- While BUSY no transfer is in flight. -/
theorem inv_sink_of_busy {s : State} (h : Inv s) (hs : s.status = .header ∨ s.status = .decode) : s.sink = none := by
  by_contra hsink
  have hready := h.sinkQuiet (Option.isSome_iff_ne_none.mpr hsink)
  rw [not_handoffReady_of_busy hs] at hready
  cases hready

/-- The pointer of a chunk inside IN does not wrap (10 R14, R15). -/
theorem toNat_sp_add {s : State} (h : Inv s) {len : Nat} (hwhole : s.sp.toNat + len ≤ s.input.length) :
    (s.sp + BitVec.ofNat 32 len).toNat = s.sp.toNat + len := by
  have := h.inputBounded
  rw [BitVec.toNat_add, BitVec.toNat_ofNat]
  omega

/-! ### Each effect of the block keeps it -/

theorem inv_raise {e : ErrKind} {sub : ErrSub} {s : State} (h : Inv s) (hbusy : s.status = .header ∨ s.status = .decode)
    (hrecord : ErrorRecord (raise e sub s)) : Inv (raise e sub s) where
  fbWf := h.fbWf
  fbInside := h.fbInside
  spInside := h.spInside
  inputBounded := h.inputBounded
  idle := nofun
  header := nofun
  decode := nofun
  done := nofun
  error _ := hrecord
  noError hs := absurd rfl hs
  sinkQuiet := by simp [inv_sink_of_busy h hbusy]

theorem inv_headerInvalid {sub : ErrSub} {s : State} (h : Inv s) (hs : s.status = .header) (hsub : sub ≠ .none) :
    Inv (raise .headerInvalid sub s) :=
  inv_raise h (.inl hs) ⟨hsub, h.header hs⟩

theorem inv_truncated {s : State} (h : Inv s) (hs : s.status = .decode) : Inv (raise .decodeTruncated .none s) :=
  inv_raise h (.inr hs) ⟨rfl, h.decode hs⟩

theorem inv_capacityExceeded {w ht : Word} {c cs : Byte} {s : State} (h : Inv s) (hs : s.status = .header)
    (hw : w ≠ 0) (hh : ht ≠ 0) (hcap : s.cfg.fbPixels < w.toNat * ht.toNat) :
    Inv (raise .capacityExceeded .none (loadHeader w ht c cs s)) := by
  obtain ⟨hprev, hindex, hsp, -, -, -, -, hpixcnt⟩ := h.header hs
  exact {
    fbWf := h.fbWf
    fbInside := h.fbInside
    spInside := h.spInside
    inputBounded := h.inputBounded
    idle := nofun
    header := nofun
    decode := nofun
    done := nofun
    error := fun _ => ⟨rfl, hw, hh, hcap, hsp, hpixcnt, hprev, hindex⟩
    noError := fun hne => absurd rfl hne
    sinkQuiet := by simp [inv_sink_of_busy h (.inl hs)] }

theorem total_pos {s : State} (hw : s.hdrWidth ≠ 0) (hh : s.hdrHeight ≠ 0) : 0 < s.total := by
  have hpos {x : Word} (hx : x ≠ 0) : 0 < x.toNat := Nat.pos_of_ne_zero fun h0 => hx (BitVec.eq_of_toNat_eq h0)
  exact Nat.mul_pos (hpos hw) (hpos hh)

theorem inv_enterDecode {w ht : Word} {c cs : Byte} {s : State} (h : Inv s) (hs : s.status = .header)
    (hw : w ≠ 0) (hh : ht ≠ 0) (hcap : w.toNat * ht.toNat ≤ s.cfg.fbPixels) (hlen : Config.headerBytes ≤ s.input.length) :
    Inv (enterDecode (loadHeader w ht c cs s)) := by
  obtain ⟨-, -, -, -, -, -, -, hpixcnt⟩ := h.header hs
  exact {
    fbWf := h.fbWf
    fbInside := h.fbInside
    spInside := hlen
    inputBounded := h.inputBounded
    idle := nofun
    header := nofun
    decode := fun _ => ⟨⟨hw, hh, hcap, le_rfl⟩, by
      simpa only [enterDecode_pixcnt, loadHeader_pixcnt, hpixcnt] using total_pos (s := enterDecode (loadHeader w ht c cs s)) hw hh⟩
    done := nofun
    error := nofun
    noError := fun _ => h.noError (by simp [hs])
    sinkQuiet := by simp [inv_sink_of_busy h (.inl hs)] }

theorem admitted_finishChunk {len n : Nat} {p : Pixel} {s : State} (h : Inv s) (hadm : Admitted s)
    (hwhole : s.sp.toNat + len ≤ s.input.length) : Admitted (finishChunk len (emitPixels n p s)) := by
  obtain ⟨hw, hh, hfits, hsp⟩ := hadm
  obtain ⟨hwidth, hheight, -, -, -, -⟩ := emitPixels_sameHeaderAndError n p s
  refine ⟨?_, ?_, ?_, ?_⟩
  · rwa [finishChunk_hdrWidth, hwidth]
  · rwa [finishChunk_hdrHeight, hheight]
  · rwa [finishChunk_total, emitPixels_total, finishChunk_cfg, emitPixels_cfg]
  · rw [finishChunk_sp, emitPixels_sp, toNat_sp_add h hwhole]
    omega

theorem finishChunk_emitPixels_status {len n : Nat} {p : Pixel} {s : State} (hs : s.status = .decode) :
    (finishChunk len (emitPixels n p s)).status = if s.pixcnt + n = s.total then .done else .decode := by
  rw [finishChunk_status, emitPixels_status, emitPixels_pixcnt, emitPixels_total, hs]

theorem inv_chunk {len n : Nat} {p : Pixel} {s : State} (h : Inv s) (hs : s.status = .decode)
    (hwhole : s.sp.toNat + len ≤ s.input.length) (hleft : n ≤ s.total - s.pixcnt)
    (hfits : n = 0 ∨ s.pixcnt + n ≤ s.cfg.fbPixels) : Inv (finishChunk len (emitPixels n p s)) := by
  obtain ⟨hadm, hmore⟩ := h.decode hs
  have hadm' := admitted_finishChunk (n := n) (p := p) h hadm hwhole
  have hstatus := finishChunk_emitPixels_status (len := len) (n := n) (p := p) hs
  obtain ⟨-, -, -, -, herr, hsub⟩ := emitPixels_sameHeaderAndError n p s
  obtain ⟨hinput, hcfg, hsink, -, -⟩ := emitPixels_sameOutside n p s
  have hnoError : s.err = .none ∧ s.errSub = .none := h.noError (by simp [hs])
  exact {
    fbWf := emitPixels_fb_wf h.fbWf
    fbInside := by simpa using emitPixels_fb_inside hfits h.fbInside
    spInside := by simpa [toNat_sp_add h hwhole] using hwhole
    inputBounded := by simpa using h.inputBounded
    idle := by rw [hstatus]; split <;> nofun
    header := by rw [hstatus]; split <;> nofun
    decode := by
      rw [hstatus, finishChunk_pixcnt, emitPixels_pixcnt, finishChunk_total, emitPixels_total]
      split
      · nofun
      · exact fun _ => ⟨hadm', by omega⟩
    done := by
      rw [hstatus, finishChunk_pixcnt, emitPixels_pixcnt, finishChunk_total, emitPixels_total]
      split
      · next hdone => exact fun _ => ⟨hadm', hdone⟩
      · nofun
    error := by rw [hstatus]; split <;> nofun
    noError := fun _ => ⟨herr.trans hnoError.1, hsub.trans hnoError.2⟩
    sinkQuiet := by
      rw [finishChunk_sink, hsink, inv_sink_of_busy h (.inr hs)]
      nofun }

theorem inv_blockEffect {s t : State} (h : Inv s) (heffect : BlockEffect s t) : Inv t := by
  cases heffect with
  | idle => exact h
  | headerInvalid hs hsub => exact inv_headerInvalid h hs hsub
  | capacityExceeded hs hw hh hcap => exact inv_capacityExceeded h hs hw hh hcap
  | enterDecode hs hw hh hcap hlen => exact inv_enterDecode h hs hw hh hcap hlen
  | truncated hs => exact inv_truncated h hs
  | chunk hs _ hwhole hcount hfits =>
    obtain ⟨-, hmore⟩ := h.decode hs
    exact inv_chunk h hs hwhole (hcount hmore).2 hfits

/-! ### The other agents keep it -/

/-- The invariant does not speak of the schedule or of the host's reading. -/
theorem inv_with_schedule_readout {s : State} (h : Inv s) (ms : List Move) (v : Option Nat) :
    Inv { s with schedule := ms, readout := v } :=
  { h with }

theorem inv_with_sink {s : State} {w : Option Word} (h : Inv s) (hw : w.isSome → handoffReady s = true) :
    Inv { s with sink := w } :=
  { h with sinkQuiet := hw }

theorem inv_reset (cfg : Config) (ms : List Move) (v : Option Nat) :
    Inv { State.reset with cfg := cfg, schedule := ms, readout := v } where
  fbWf := wf_nil
  fbInside := nofun
  spInside := le_rfl
  inputBounded := Nat.two_pow_pos 32
  idle _ := fresh_reset
  header := nofun
  decode := nofun
  done := nofun
  error := nofun
  noError _ := ⟨rfl, rfl⟩
  sinkQuiet := nofun

theorem inv_beginDecode {input : List Byte} {s : State} (h : Inv s) (hsink : s.sink = none)
    (hlen : input.length < 2 ^ 32) : Inv (beginDecode input s) where
  fbWf := h.fbWf
  fbInside := h.fbInside
  spInside := Nat.zero_le _
  inputBounded := hlen
  idle := nofun
  header _ := fresh_beginDecode input s
  decode := nofun
  done := nofun
  error := nofun
  noError _ := ⟨rfl, rfl⟩
  sinkQuiet := by simp [hsink]

theorem inv_moveEffect {s t : State} {m : Move} (h : Inv s) (heffect : MoveEffect s m t) : Inv t := by
  cases heffect with
  | block hblock => exact inv_blockEffect h hblock
  | reset => exact inv_reset _ _ _
  | start _ hsink hlen => exact inv_beginDecode h hsink hlen
  | readRegister | readFb => exact inv_with_schedule_readout h s.schedule _
  | handoff hready => exact inv_with_sink h fun _ => hready
  | sinkEnds => exact inv_with_sink h nofun

/-- Settles O49. -/
theorem invariantAtReset : Obligations.InvariantAtReset := inv_reset {} [] none

/-- Settles O50: every step is one agent's move, and each effect keeps the invariant. -/
theorem invariantKeptByEveryStep : Obligations.InvariantKeptByEveryStep := by
  intro s t h hstep
  rcases step_effect hstep with ⟨-, hblock⟩ | ⟨m, ms, -, hmove⟩
  · exact inv_blockEffect h hblock
  · exact inv_moveEffect (inv_with_schedule_readout h ms s.readout) hmove

/-! ## Progress: the block never stops, and a decode ends (41 R94, 43 R106, 70 R160) -/

theorem exists_execHeader_next (w h : Word) (c cs : Byte) (s : State) : ∃ t, execHeader w h c cs s = .next t := by
  unfold execHeader
  dsimp only
  split_ifs <;> exact ⟨_, rfl⟩

theorem exists_execChunk_next {i : Instr} {s : State} (hi : IsChunk i) (hr : Ready s) : ∃ t, exec i s = .next t := by
  obtain ⟨hs, hmore, hfits⟩ := hr
  obtain ⟨n, p, hexec, -, hleft⟩ := exec_chunk hi s
  have hn := hleft (by omega)
  exact ⟨_, hexec.trans (chunkStep_next.mpr (.inr ⟨hs, .inr (by omega), rfl⟩))⟩

/-- Settles O29: an admitted image is wholly inside FB, and so are the pixels still to come. -/
theorem blockMoveNeverStops : Obligations.BlockMoveNeverStops := by
  intro s h hm
  rw [step_of_no_schedule hm]
  by_cases hheader : s.status = .header
  · rw [blockStep_of_fetch (fetch_of_header hheader)]
    cases hd : decodeHeader s.input with
    | rejected why => exact ⟨_, rfl⟩
    | instr i rest =>
      obtain ⟨w, ht, c, cs, rfl, -⟩ := header_of_decodeHeader hd
      exact exists_execHeader_next w ht c cs s
  by_cases hdecode : s.status = .decode
  · rw [blockStep_of_fetch (fetch_of_decode hdecode)]
    cases hd : decodeChunk (s.input.drop s.sp.toNat) with
    | rejected why => exact ⟨_, rfl⟩
    | instr i rest =>
      obtain ⟨hchunk, -, -⟩ := encode_of_decodeChunk hd
      exact exists_execChunk_next hchunk (inv_ready h hdecode)
  · exact ⟨s, blockStep_of_not_busy (busy_eq_false.mpr ⟨hheader, hdecode⟩)⟩

/-- Of the block's effects, status DECODE leaves two: the chunk is truncated, or it emits at least one of the pixels to come. -/
theorem decode_step_cases {s : State} (h : Inv s) (hm : BlockMoves s) (hs : s.status = .decode) :
    step s = .next (raise .decodeTruncated .none s) ∨
    ∃ tag n p, step s = .next (finishChunk (chunkLength tag) (emitPixels n p s)) ∧ s.input[s.sp.toNat]? = some tag ∧
      s.sp.toNat + chunkLength tag ≤ s.input.length ∧ 1 ≤ n ∧ n ≤ s.total - s.pixcnt := by
  obtain ⟨t, hstep⟩ := blockMoveNeverStops s h hm
  cases step_block_effect hm hstep with
  | idle hbusy => exact absurd hs (busy_eq_false.mp hbusy).2
  | headerInvalid hheader | capacityExceeded hheader | enterDecode hheader => cases hs.symm.trans hheader
  | truncated => exact .inl hstep
  | chunk _ htag hwhole hcount =>
    obtain ⟨-, hmore⟩ := h.decode hs
    exact .inr ⟨_, _, _, hstep, htag, hwhole, hcount hmore⟩

/-- Settles O27. -/
theorem chunkStepRaisesOrMakesProgress : Obligations.ChunkStepRaisesOrMakesProgress := by
  intro s h hm hs
  rcases decode_step_cases h hm hs with hraise | ⟨tag, n, p, hstep, htag, hwhole, hpos, hleft⟩
  · exact .inl hraise
  · have hsp : (finishChunk (chunkLength tag) (emitPixels n p s)).sp.toNat = s.sp.toNat + chunkLength tag := by
      rw [finishChunk_sp, emitPixels_sp, toNat_sp_add h hwhole]
    obtain ⟨-, hmore⟩ := h.decode hs
    refine .inr ⟨_, tag, hstep, htag, hsp, hsp ▸ hwhole, ?_, ?_⟩ <;>
      (rw [finishChunk_pixcnt, emitPixels_pixcnt]; omega)

/-- The decode is over. -/
def Ended (s : State) : Prop := s.status = .done ∨ s.status = .error

theorem run_one {s t : State} (h : step s = .next t) : Host.Core.run core 1 s = .next t := run_succ h 0

/-- One move of the block in status DECODE ends the decode or leaves fewer pixels to come. -/
theorem decode_step_ends_or_progresses {s : State} (h : Inv s) (hm : BlockMoves s) (hs : s.status = .decode) :
    ∃ t, step s = .next t ∧ (Ended t ∨ t.status = .decode ∧ t.total - t.pixcnt < s.total - s.pixcnt) := by
  rcases decode_step_cases h hm hs with hraise | ⟨tag, n, p, hstep, -, -, hpos, hleft⟩
  · exact ⟨_, hraise, .inl (.inr rfl)⟩
  · refine ⟨_, hstep, ?_⟩
    rw [Ended, finishChunk_emitPixels_status hs]
    split
    · exact .inl (.inl rfl)
    · refine .inr ⟨rfl, ?_⟩
      rw [finishChunk_total, emitPixels_total, finishChunk_pixcnt, emitPixels_pixcnt]
      omega

theorem run_decode_ends {d : Nat} {s : State} (h : Inv s) (hm : BlockMoves s) (hs : s.status = .decode)
    (hd : s.total - s.pixcnt ≤ d) : ∃ k t, k ≤ d ∧ Host.Core.run core k s = .next t ∧ Ended t := by
  induction d generalizing s with
  | zero =>
    obtain ⟨-, hmore⟩ := h.decode hs
    omega
  | succ d ih =>
    obtain ⟨t, hstep, hended | ⟨hdecode, hless⟩⟩ := decode_step_ends_or_progresses h hm hs
    · exact ⟨1, t, Nat.succ_pos d, run_one hstep, hended⟩
    · obtain ⟨k, u, hk, hrun, hended⟩ := ih (invariantKeptByEveryStep s t h hstep)
        ((step_block_effect hm hstep).blockMoves hm) hdecode (by omega)
      exact ⟨k + 1, u, Nat.succ_le_succ hk, (run_succ hstep k).trans hrun, hended⟩

/-- One move of the block in status HEADER ends the decode or enters DECODE with an image that fits. -/
theorem header_step_ends_or_enters {s : State} (h : Inv s) (hm : BlockMoves s) (hs : s.status = .header) :
    ∃ t, step s = .next t ∧ (Ended t ∨ t.status = .decode ∧ t.total ≤ s.cfg.fbPixels) := by
  obtain ⟨t, hstep⟩ := blockMoveNeverStops s h hm
  refine ⟨t, hstep, ?_⟩
  cases step_block_effect hm hstep with
  | idle hbusy => exact absurd hs (busy_eq_false.mp hbusy).1
  | headerInvalid | capacityExceeded => exact .inl (.inr rfl)
  | enterDecode _ _ _ hcap => exact .inr ⟨rfl, hcap⟩
  | truncated hdecode | chunk hdecode => cases hs.symm.trans hdecode

/-- Settles O28: each chunk step leaves fewer pixels to come, of at most FB_PIXELS after the header step. -/
theorem decodeTerminates : Obligations.DecodeTerminates := by
  refine fun s h hm => ⟨fun hs => run_decode_ends h hm hs le_rfl, fun hs => ?_⟩
  obtain ⟨t, hstep, hended | ⟨hdecode, hfits⟩⟩ := header_step_ends_or_enters h hm hs
  · exact ⟨1, t, Nat.le_add_left 1 _, run_one hstep, hended⟩
  · obtain ⟨k, u, hk, hrun, hended⟩ := run_decode_ends (invariantKeptByEveryStep s t h hstep)
      ((step_block_effect hm hstep).blockMoves hm) hdecode ((Nat.sub_le _ _).trans hfits)
    exact ⟨k + 1, u, Nat.succ_le_succ hk, (run_succ hstep k).trans hrun, hended⟩

/-! ## The history of emitted pixels (10 R26) -/

theorem lastInSlot_append_singleton (ps : List Pixel) (p : Pixel) (k : Fin 64) :
    lastInSlot (ps ++ [p]) k = if k = slot p then p else lastInSlot ps k := by
  have hslot : hashSum p % 64 = k.val ↔ k = slot p := by rw [Fin.ext_iff, slot_val, eq_comm]
  rw [lastInSlot, List.reverse_append, List.reverse_singleton, List.singleton_append]
  by_cases hk : k = slot p
  · rw [List.find?_cons_of_pos (by simpa using hslot.mpr hk), if_pos hk, Option.getD_some]
  · rw [List.find?_cons_of_neg (by simpa [hslot] using hk), if_neg hk, lastInSlot]

theorem emitted_emitPixel {ps : List Pixel} {s : State} (h : Emitted ps s) (p : Pixel) :
    Emitted (ps ++ [p]) (emitPixel p s) where
  prev := by simp
  index k := by rw [emitPixel_index, cacheRead_cacheWrite, lastInSlot_append_singleton, h.index]
  pixcnt := by simp [h.pixcnt]
  fb n q hq := by
    simp only [emitPixel_fb, fbRead_fbWriteHalf, State.writeOffset, h.pixcnt, highByte_rgb565, lowByte_rgb565]
    rcases Nat.lt_trichotomy n ps.length with hlt | rfl | hgt
    · rw [List.getElem?_append_left hlt] at hq
      obtain ⟨heven, hodd⟩ := h.fb n q hq
      constructor
      · rw [if_neg (by omega), if_neg (by omega), heven]
      · rw [if_neg (by omega), if_neg (by omega), hodd]
    · rw [List.getElem?_concat_length] at hq
      cases hq
      constructor
      · rw [if_neg (by omega), if_pos rfl]
      · rw [if_pos rfl]
    · rw [List.getElem?_eq_none (by rw [List.length_append, List.length_singleton]; omega)] at hq
      cases hq

theorem emitted_emitPixels {ps : List Pixel} {s : State} (h : Emitted ps s) (n : Nat) (p : Pixel) :
    Emitted (ps ++ List.replicate n p) (emitPixels n p s) := by
  induction n generalizing ps s with
  | zero => simpa [emitPixels] using h
  | succ n ih =>
    rw [List.replicate_succ, ← List.singleton_append, ← List.append_assoc]
    exact ih (emitted_emitPixel h p)

/-- The history speaks of four fields only. -/
theorem emitted_of_fields {ps : List Pixel} {s t : State} (h : Emitted ps s) (hprev : t.prev = s.prev)
    (hindex : t.index = s.index) (hpixcnt : t.pixcnt = s.pixcnt) (hfb : t.fb = s.fb) : Emitted ps t where
  prev := hprev.trans h.prev
  index k := by rw [hindex, h.index]
  pixcnt := hpixcnt.trans h.pixcnt
  fb := by rw [hfb]; exact h.fb

/-- Where the decoder state is anew, nothing has been emitted. -/
theorem emitted_nil_of_fresh {s : State} (h : Fresh s) : Emitted [] s := by
  obtain ⟨hprev, hindex, -, -, -, -, -, hpixcnt⟩ := h
  exact ⟨hprev, fun k => by rw [hindex, cacheRead_initialIndex]; rfl, hpixcnt, nofun⟩

theorem emitted_blockEffect {ps : List Pixel} {s t : State} (h : Emitted ps s) (heffect : BlockEffect s t) :
    ∃ qs, Emitted (ps ++ qs) t := by
  cases heffect with
  | @chunk tag n p => exact ⟨List.replicate n p, emitted_of_fields (emitted_emitPixels h n p) rfl rfl rfl rfl⟩
  | _ => exact ⟨[], (List.append_nil ps).symm ▸ emitted_of_fields h rfl rfl rfl rfl⟩

theorem emitted_moveEffect {ps : List Pixel} {s t : State} {m : Move} (h : Emitted ps s) (heffect : MoveEffect s m t) :
    (∃ qs, Emitted (ps ++ qs) t) ∨
    (Emitted [] t ∧ ∃ c, m = .host c ∧ (c = .reset ∨ ∃ input, c = .start input)) := by
  cases heffect with
  | block hblock => exact .inl (emitted_blockEffect h hblock)
  | reset => exact .inr ⟨emitted_nil_of_fresh fresh_reset, _, rfl, .inl rfl⟩
  | start => exact .inr ⟨emitted_nil_of_fresh (fresh_beginDecode _ _), _, rfl, .inr ⟨_, rfl⟩⟩
  | readRegister | readFb | handoff | sinkEnds =>
    exact .inl ⟨[], (List.append_nil ps).symm ▸ emitted_of_fields h rfl rfl rfl rfl⟩

/-- Settles O51. -/
theorem nothingEmittedAtReset : Obligations.NothingEmittedAtReset := emitted_nil_of_fresh fresh_reset

/-- Settles O52: every step is one agent's move, and each effect appends pixels or starts anew. -/
theorem historyKeptByEveryStep : Obligations.HistoryKeptByEveryStep := by
  intro ps s t h hstep
  rcases step_effect hstep with ⟨-, hblock⟩ | ⟨m, ms, hms, hmove⟩
  · exact .inl (emitted_blockEffect h hblock)
  · have h' : Emitted ps { s with schedule := ms } := emitted_of_fields h rfl rfl rfl rfl
    rcases emitted_moveEffect h' hmove with hqs | ⟨hnil, c, rfl, hc⟩
    · exact .inl hqs
    · exact .inr ⟨hnil, c, ms, hms, hc⟩

/-- Where the invariant holds and a pixel has been counted, the header describes an image that FB holds. -/
theorem inv_counts {s : State} (h : Inv s) (hpos : 1 ≤ s.pixcnt) :
    s.pixcnt ≤ s.total ∧ s.total ≤ s.cfg.fbPixels ∧ (s.status = .done → s.pixcnt = s.total) := by
  have hnotFresh (hfresh : Fresh s) : False := by
    obtain ⟨-, -, -, -, -, -, -, hpixcnt⟩ := hfresh
    omega
  cases hs : s.status with
  | idle => exact (hnotFresh (h.idle hs)).elim
  | header => exact (hnotFresh (h.header hs)).elim
  | decode =>
    obtain ⟨⟨-, -, hfits, -⟩, hmore⟩ := h.decode hs
    exact ⟨hmore.le, hfits, nofun⟩
  | done =>
    obtain ⟨⟨-, -, hfits, -⟩, hcount⟩ := h.done hs
    exact ⟨hcount.le, hfits, fun _ => hcount⟩
  | error =>
    have hrecord := h.error hs
    unfold ErrorRecord at hrecord
    split at hrecord
    · exact hrecord.elim
    · exact (hnotFresh hrecord.2).elim
    · obtain ⟨-, ⟨-, -, hfits, -⟩, hmore⟩ := hrecord
      exact ⟨hmore.le, hfits, nofun⟩
    · obtain ⟨-, -, -, -, -, hpixcnt, -, -⟩ := hrecord
      omega

/-- Settles O53: the last pixel emitted is the most recent one in its own slot. -/
theorem cacheLawAndCounts : Obligations.CacheLawAndCounts := by
  intro ps s h hemitted hpos
  rcases List.eq_nil_or_concat ps with rfl | ⟨init, p, rfl⟩
  · have := hemitted.pixcnt
    rw [List.length_nil] at this
    omega
  · rw [List.concat_eq_append] at hemitted ⊢
    have hprev : s.prev = p := by rw [hemitted.prev, List.getLast?_concat, Option.getD_some]
    refine ⟨?_, ?_, inv_counts h hpos⟩
    · rw [hemitted.index, lastInSlot_append_singleton, hprev, if_pos rfl]
    · rw [List.getLast?_concat, hprev]

end Sys2Proof.Machine
